-- ==== Sys2Proof/Word.lean ====
section
/-! DEFINITION. The widths the spec gives: bytes, 16-bit operand fields and 80-bit frames (00_scope R8, 30_encoding R81). -/

namespace Sys2Proof

/-- A framebuffer cell, glyph byte, character code or payload byte (00_scope R8: W_CH = 8). -/
abbrev Byte := BitVec 8

/-- A coordinate, column or page field (00_scope R8: W_COORD = 16). -/
abbrev Half := BitVec 16

/-- One command frame, bit 79 the most significant (30_encoding R81). -/
abbrev Frame := BitVec 80

end Sys2Proof
end

