-- ==== Sys2Proof/Syntax.lean ====
section
/-! DEFINITION. The 18 commands of the opcode table (30_encoding R90), one constructor per row. A constructor's arguments
are the fields its format reads (30_encoding R84), as the frame holds them; the payload of a string command is not part of
it, only its length field. -/

namespace Sys2Proof

/-- A command, as its frame alone gives it. Coordinates, columns and pages are raw 16-bit fields; the meaning reads them
with sext_16 (30_encoding R85). -/
inductive Instr where
  /-- 0x01 INIT, format N (45 R250). -/
  | init
  /-- 0x02 SETCURSOR col, page; format P (41 R140). -/
  | setcursor (col page : Half)
  /-- 0x03 CLEAR, format N (40 R121). -/
  | clear
  /-- 0x04 CLEARFLUSH, format N (44 R234). -/
  | clearflush
  /-- 0x05 PUTCHAR ch [, INV]; format C (41 R141). -/
  | putchar (inv : Bool) (ch : Byte)
  /-- 0x06 PRINTSTR "s" [, INV]; format S (41 R150). -/
  | printstr (inv absent : Bool) (len : Byte)
  /-- 0x07 PUTCHARXY ch, x, y [, INV]; format X (42 R160). -/
  | putcharxy (inv : Bool) (ch : Byte) (x y : Half)
  /-- 0x08 PRINTSTRXY "s", x, y [, INV]; format T (42 R180). -/
  | printstrxy (inv absent : Bool) (len : Byte) (x y : Half)
  /-- 0x09 DRAWRECT x0, y0, x1, y1 [, INV]; format R (43 R210). -/
  | drawrect (inv : Bool) (x0 y0 x1 y1 : Half)
  /-- 0x0A FILLRECT x0, y0, x1, y1 [, INV]; format R (43 R220). -/
  | fillrect (inv : Bool) (x0 y0 x1 y1 : Half)
  /-- 0x0B MEASURE "s"; format S with INV = 0 (42 R190). -/
  | measure (absent : Bool) (len : Byte)
  /-- 0x0C FLUSHALL, format N (44 R232). -/
  | flushall
  /-- 0x0D FLUSHREGION col_start, page_start, col_end, page_end; format R with INV = 0 (44 R233). -/
  | flushregion (c0 p0 c1 p1 : Half)
  /-- 0x0E SETMODE AUTO / DEFER; format M (45 R251). -/
  | setmode (auto : Bool)
  /-- 0x10 GETB col, page; format P (40 R122). -/
  | getb (col page : Half)
  /-- 0x11 SETB col, page, v; format B (40 R123). -/
  | setb (col page : Half) (v : Byte)
  /-- 0x12 ORB col, page, m; format B (40 R124). -/
  | orb (col page : Half) (m : Byte)
  /-- 0x13 ANDNB col, page, m; format B (40 R125). -/
  | andnb (col page : Half) (m : Byte)
  deriving DecidableEq, Repr

end Sys2Proof
end

