-- ==== Sys2Proof/WellFormed.lean ====
section
/-! DEFINITION. Which commands have a frame: every operand value is legal (60 R261), and the one constraint between fields is
that an absent string has length 0 (30_encoding R82, R101). -/

namespace Sys2Proof

/-- ABSENT = 1 requires LEN = 0 (30_encoding R101). -/
def stringFieldsOk (absent : Bool) (len : Byte) : Bool :=
  !absent || len == 0

/-- The check of 30_encoding R101 on the three string commands; the other commands have nothing to check. -/
def Instr.wellFormed : Instr → Bool
  | .init => true
  | .setcursor _ _ => true
  | .clear => true
  | .clearflush => true
  | .putchar _ _ => true
  | .printstr _ absent len => stringFieldsOk absent len
  | .putcharxy _ _ _ _ => true
  | .printstrxy _ absent len _ _ => stringFieldsOk absent len
  | .drawrect _ _ _ _ _ => true
  | .fillrect _ _ _ _ _ => true
  | .measure absent len => stringFieldsOk absent len
  | .flushall => true
  | .flushregion _ _ _ _ => true
  | .setmode _ => true
  | .getb _ _ => true
  | .setb _ _ _ => true
  | .orb _ _ _ => true
  | .andnb _ _ _ => true

/-- The command is one a frame can hold. -/
abbrev WellFormed (i : Instr) : Prop := i.wellFormed = true

end Sys2Proof
end

