-- ==== Sys2Proof/Decode.lean ====
section
/-! DEFINITION. The decoder of 80-bit frames, total and rejecting by name, and the encoder (30_encoding R80 to R103). -/

namespace Sys2Proof

/-- Why a frame is no command. All three raise IllegalCommand (60 R262), which does not distinguish them (60 R263). -/
inductive DecodeError where
  /-- OP is 0x00, 0x0F or 0x14 to 0xFF (30_encoding R100). -/
  | unassignedOpcode
  /-- A 1 in a bit the command's format does not use (30_encoding R101). -/
  | reservedBits
  /-- ABSENT = 1 with LEN not 0 (30_encoding R101). -/
  | absentWithLength
  /-- Fewer than ten bytes where a frame is read from a byte-wide link (30_encoding R81). -/
  | truncated
  deriving DecidableEq, Repr

/-! ### The fields of a frame (30_encoding R81, R82) -/

def opField (f : Frame) : Byte := f.extractLsb' 72 8
def flagsField (f : Frame) : Byte := f.extractLsb' 64 8
def aField (f : Frame) : Half := f.extractLsb' 48 16
def bField (f : Frame) : Half := f.extractLsb' 32 16
def cField (f : Frame) : Half := f.extractLsb' 16 16
def dField (f : Frame) : Half := f.extractLsb' 0 16

/-- C[7:0]: CH, LEN or V (30_encoding R81, R85). -/
def lowField (f : Frame) : Byte := (cField f).extractLsb' 0 8

/-- FLAGS[0], frame bit 64 (30_encoding R82). -/
def invBit (f : Frame) : Bool := (flagsField f).getLsbD 0

/-- FLAGS[1], frame bit 65 (30_encoding R82). -/
def absentBit (f : Frame) : Bool := (flagsField f).getLsbD 1

/-- FLAGS[2], frame bit 66 (30_encoding R82). -/
def autoBit (f : Frame) : Bool := (flagsField f).getLsbD 2

/-! ### The opcode map (30_encoding R90) -/

/-- One row of the table of 30_encoding R90. `counted` marks the string commands (formats S and T), whose LEN must be 0 when
ABSENT = 1; `build` takes the operands out of the frame. -/
structure EncodingRow where
  opcode : Byte
  pattern : Frame
  mask : Frame
  counted : Bool
  build : Frame → Instr

/-- The first half of the table of 30_encoding R90: INIT to FILLRECT. -/
def surfacedRows : List EncodingRow := [
  ⟨0x01, 0x01000000000000000000, 0xFFFFFFFFFFFFFFFFFFFF, false, fun _ => .init⟩,
  ⟨0x02, 0x02000000000000000000, 0xFFFF00000000FFFFFFFF, false, fun f => .setcursor (aField f) (bField f)⟩,
  ⟨0x03, 0x03000000000000000000, 0xFFFFFFFFFFFFFFFFFFFF, false, fun _ => .clear⟩,
  ⟨0x04, 0x04000000000000000000, 0xFFFFFFFFFFFFFFFFFFFF, false, fun _ => .clearflush⟩,
  ⟨0x05, 0x05000000000000000000, 0xFFFEFFFFFFFFFF00FFFF, false, fun f => .putchar (invBit f) (lowField f)⟩,
  ⟨0x06, 0x06000000000000000000, 0xFFFCFFFFFFFFFF00FFFF, true,
    fun f => .printstr (invBit f) (absentBit f) (lowField f)⟩,
  ⟨0x07, 0x07000000000000000000, 0xFFFE00000000FF00FFFF, false,
    fun f => .putcharxy (invBit f) (lowField f) (aField f) (bField f)⟩,
  ⟨0x08, 0x08000000000000000000, 0xFFFC00000000FF00FFFF, true,
    fun f => .printstrxy (invBit f) (absentBit f) (lowField f) (aField f) (bField f)⟩,
  ⟨0x09, 0x09000000000000000000, 0xFFFE0000000000000000, false,
    fun f => .drawrect (invBit f) (aField f) (bField f) (cField f) (dField f)⟩,
  ⟨0x0A, 0x0A000000000000000000, 0xFFFE0000000000000000, false,
    fun f => .fillrect (invBit f) (aField f) (bField f) (cField f) (dField f)⟩]

/-- The rest of the table of 30_encoding R90: MEASURE to ANDNB. -/
def furtherRows : List EncodingRow := [
  ⟨0x0B, 0x0B000000000000000000, 0xFFFDFFFFFFFFFF00FFFF, true, fun f => .measure (absentBit f) (lowField f)⟩,
  ⟨0x0C, 0x0C000000000000000000, 0xFFFFFFFFFFFFFFFFFFFF, false, fun _ => .flushall⟩,
  ⟨0x0D, 0x0D000000000000000000, 0xFFFF0000000000000000, false,
    fun f => .flushregion (aField f) (bField f) (cField f) (dField f)⟩,
  ⟨0x0E, 0x0E000000000000000000, 0xFFFBFFFFFFFFFFFFFFFF, false, fun f => .setmode (autoBit f)⟩,
  ⟨0x10, 0x10000000000000000000, 0xFFFF00000000FFFFFFFF, false, fun f => .getb (aField f) (bField f)⟩,
  ⟨0x11, 0x11000000000000000000, 0xFFFF00000000FF00FFFF, false,
    fun f => .setb (aField f) (bField f) (lowField f)⟩,
  ⟨0x12, 0x12000000000000000000, 0xFFFF00000000FF00FFFF, false,
    fun f => .orb (aField f) (bField f) (lowField f)⟩,
  ⟨0x13, 0x13000000000000000000, 0xFFFF00000000FF00FFFF, false,
    fun f => .andnb (aField f) (bField f) (lowField f)⟩]

def encodingTable : List EncodingRow := surfacedRows ++ furtherRows

/-- The row an opcode byte selects, if it is assigned (30_encoding R90, R100). -/
def rowOf (op : Byte) : Option EncodingRow :=
  encodingTable.find? fun r => r.opcode == op

/-- What the row makes of a frame: the reserved bits first, then the constraint between ABSENT and LEN (30_encoding R101);
their order is not observable (60 R263). -/
def EncodingRow.read (r : EncodingRow) (f : Frame) : Except DecodeError Instr :=
  if f &&& r.mask = r.pattern then
    if r.counted && absentBit f && lowField f != 0 then .error .absentWithLength
    else .ok (r.build f)
  else .error .reservedBits

/-- Decoding one frame (30_encoding R90, R100 to R102). -/
def decode (f : Frame) : Except DecodeError Instr :=
  match rowOf (opField f) with
  | none => .error .unassignedOpcode
  | some r => r.read f

/-! ### The encoder (30_encoding R81 to R85, R90) -/

/-- The frame with these fields (30_encoding R81). -/
def frame (op flags : Byte) (a b c d : Half) : Frame :=
  op ++ flags ++ a ++ b ++ c ++ d

/-- FLAGS from INV, ABSENT and AUTOBIT; bits 7:3 are 0 (30_encoding R82). -/
def flagsOf (inv absent auto : Bool) : Byte :=
  (0 : BitVec 5) ++ BitVec.ofBool auto ++ BitVec.ofBool absent ++ BitVec.ofBool inv

/-- Field C of the formats that use only C[7:0]: C[15:8] = 0 (30_encoding R81, R101). -/
def lowOnly (v : Byte) : Half := (0 : Byte) ++ v

/-- The OP byte of a command (30_encoding R90). -/
def opcode : Instr → Byte
  | .init => 0x01
  | .setcursor _ _ => 0x02
  | .clear => 0x03
  | .clearflush => 0x04
  | .putchar _ _ => 0x05
  | .printstr _ _ _ => 0x06
  | .putcharxy _ _ _ _ => 0x07
  | .printstrxy _ _ _ _ _ => 0x08
  | .drawrect _ _ _ _ _ => 0x09
  | .fillrect _ _ _ _ _ => 0x0A
  | .measure _ _ => 0x0B
  | .flushall => 0x0C
  | .flushregion _ _ _ _ => 0x0D
  | .setmode _ => 0x0E
  | .getb _ _ => 0x10
  | .setb _ _ _ => 0x11
  | .orb _ _ _ => 0x12
  | .andnb _ _ _ => 0x13

/-- The frame of a command: format by format, every unused bit 0 (30_encoding R84). -/
def encode (i : Instr) : Frame :=
  match i with
  | .init => frame (opcode i) 0 0 0 0 0
  | .setcursor col page => frame (opcode i) 0 col page 0 0
  | .clear => frame (opcode i) 0 0 0 0 0
  | .clearflush => frame (opcode i) 0 0 0 0 0
  | .putchar inv ch => frame (opcode i) (flagsOf inv false false) 0 0 (lowOnly ch) 0
  | .printstr inv absent len => frame (opcode i) (flagsOf inv absent false) 0 0 (lowOnly len) 0
  | .putcharxy inv ch x y => frame (opcode i) (flagsOf inv false false) x y (lowOnly ch) 0
  | .printstrxy inv absent len x y => frame (opcode i) (flagsOf inv absent false) x y (lowOnly len) 0
  | .drawrect inv x0 y0 x1 y1 => frame (opcode i) (flagsOf inv false false) x0 y0 x1 y1
  | .fillrect inv x0 y0 x1 y1 => frame (opcode i) (flagsOf inv false false) x0 y0 x1 y1
  | .measure absent len => frame (opcode i) (flagsOf false absent false) 0 0 (lowOnly len) 0
  | .flushall => frame (opcode i) 0 0 0 0 0
  | .flushregion c0 p0 c1 p1 => frame (opcode i) 0 c0 p0 c1 p1
  | .setmode auto => frame (opcode i) (flagsOf false false auto) 0 0 0 0
  | .getb col page => frame (opcode i) 0 col page 0 0
  | .setb col page v => frame (opcode i) 0 col page (lowOnly v) 0
  | .orb col page m => frame (opcode i) 0 col page (lowOnly m) 0
  | .andnb col page m => frame (opcode i) 0 col page (lowOnly m) 0

/-- How many payload bytes follow a string command's frame on STR (30_encoding R83). -/
def stringPayload (absent : Bool) (len : Byte) : Nat :=
  if absent then 0 else len.toNat

/-- How many payload bytes the command takes from STR (30_encoding R83, R103). -/
def payloadLength : Instr → Nat
  | .init => 0
  | .setcursor _ _ => 0
  | .clear => 0
  | .clearflush => 0
  | .putchar _ _ => 0
  | .printstr _ absent len => stringPayload absent len
  | .putcharxy _ _ _ _ => 0
  | .printstrxy _ absent len _ _ => stringPayload absent len
  | .drawrect _ _ _ _ _ => 0
  | .fillrect _ _ _ _ _ => 0
  | .measure absent len => stringPayload absent len
  | .flushall => 0
  | .flushregion _ _ _ _ => 0
  | .setmode _ => 0
  | .getb _ _ => 0
  | .setb _ _ _ => 0
  | .orb _ _ _ => 0
  | .andnb _ _ _ => 0

/-- The payload bytes the frame alone announces: LEN if OP is 0x06, 0x08 or 0x0B and ABSENT = 0, else 0 (30_encoding R103). -/
def framePayload (f : Frame) : Nat :=
  if (opField f == 0x06 || opField f == 0x08 || opField f == 0x0B) && !absentBit f then (lowField f).toNat else 0

/-- The total length in bytes of a command, from its frame alone (30_encoding R103). -/
def commandBytes (f : Frame) : Nat := 10 + framePayload f

/-! ### A byte-wide link (30_encoding R81) -/

/-- Byte `k` of a frame, counted from the least significant. -/
def frameByte (f : Frame) (k : Nat) : Byte := f.extractLsb' (8 * k) 8

/-- The ten bytes of a frame, most significant first (30_encoding R81). -/
def frameToBytes (f : Frame) : List Byte :=
  [frameByte f 9, frameByte f 8, frameByte f 7, frameByte f 6, frameByte f 5,
   frameByte f 4, frameByte f 3, frameByte f 2, frameByte f 1, frameByte f 0]

/-- A command and the rest of the bytes, read from a byte-wide link (30_encoding R81). -/
def decodeBytes : List Byte → Except DecodeError (Instr × List Byte)
  | b9 :: b8 :: b7 :: b6 :: b5 :: b4 :: b3 :: b2 :: b1 :: b0 :: rest =>
    match decode (b9 ++ b8 ++ b7 ++ b6 ++ b5 ++ b4 ++ b3 ++ b2 ++ b1 ++ b0) with
    | .ok i => .ok (i, rest)
    | .error e => .error e
  | _ => .error .truncated

/-- The frame whose low `nbits` bits are `w`, bit 0 the least significant, the bits above 0: the numbering of
opcode_table.json, where a row is one 80-bit number. -/
def tableFrame (nbits w : Nat) : Frame := BitVec.ofNat 80 (w % 2 ^ nbits)

/-- The instruction the decoder reads from a word numbered as opcode_table.json numbers it. -/
def decodeTableWord (nbits w : Nat) : Option Instr :=
  match decode (tableFrame nbits w) with
  | .ok i => some i
  | .error _ => none

end Sys2Proof
end

