-- ==== Sys2Proof/Machine/Memory.lean ====
section
/-! DEFINITION. The framebuffer as a list of cells in one canonical form, and MemRead and MemWrite over it
(00_scope section 7, 20_memory R50, R51, R60). -/

namespace Sys2Proof.Machine

/-- The framebuffer: (index, byte) pairs with strictly rising indices below 1024 and no byte equal to `unlistedByte`. -/
abbrev Memory := List Host.Cell

/-- What an index that is not listed reads as. It is the byte FbClear leaves everywhere (20_memory R60), so a clear buffer is
the empty list; it is no reset value: after reset every cell holds a free value (log entry 2). -/
def unlistedByte : Byte := 0

/-- The canonical form from index `lo` on. -/
def Memory.wfFrom : Nat → Memory → Bool
  | _, [] => true
  | lo, (b, v) :: m => decide (lo ≤ b) && decide (b < 1024) && v != unlistedByte && Memory.wfFrom (b + 1) m

/-- The canonical form: indices strictly rising and below 1024, no entry equal to what an unlisted index reads as. -/
def Memory.wf (m : Memory) : Bool := Memory.wfFrom 0 m

/-- MemRead(a, 1) (00_scope section 7). -/
def Memory.read : Memory → Nat → Byte
  | [], _ => unlistedByte
  | (b, v) :: m, a => if b = a then v else Memory.read m a

/-- MemWrite(a, 1, v) (00_scope section 7), keeping the canonical form. -/
def Memory.write : Memory → Nat → Byte → Memory
  | [], a, v => if v = unlistedByte then [] else [(a, v)]
  | (b, w) :: m, a, v =>
    if b < a then (b, w) :: Memory.write m a v
    else if b = a then (if v = unlistedByte then m else (a, v) :: m)
    else if v = unlistedByte then (b, w) :: m
    else (a, v) :: (b, w) :: m

/-- FbClear(): every cell 0x00 (20_memory R60). -/
def Memory.clear : Memory := []

/-- The framebuffer whose byte at index `a` is `f a`, for every `a` in [0, 1023]. Irreducible, so that comparing two states never
walks its 1024 cells. -/
@[irreducible] def Memory.ofBytes (f : Nat → Byte) : Memory :=
  (List.range 1024).filterMap fun a => if f a = unlistedByte then none else some (a, f a)

end Sys2Proof.Machine
end

