-- ==== Sys2Proof/Config.lean ====
section
/-! DEFINITION. What an implementation fixes (00_scope R9) and the free values: opaque constants with no body, of which
nothing can be proved but that they are some value. -/

namespace Sys2Proof

/-- The parameters the spec leaves open and tells a model to take as arguments (00_scope R9, 10_state R21). The state
carries them in a field that no step writes, so a claim about every state is a claim about every value of them. -/
structure Params where
  /-- FONT: the 480 bytes of the font port, byte i of code at (code - 0x20)*5 + i (20_memory R63). -/
  font : List Byte
  /-- AUTO_DEFAULT: AUTO after reset and after INIT (70 R282, 45 R250). -/
  autoDefault : Bool
  /-- LOWER_SUPPRESS_FROM: the smallest lower page whose write the page-crossing blit suppresses (42 R167). -/
  lowerSuppressFrom : Nat
  /-- TX_TIMEOUT: handed unchanged to the transport, read by no rule (20_memory R67). -/
  txTimeout : Nat
  deriving DecidableEq, Repr

/-- What the host sees on the status wires (10_state R31). -/
structure Status where
  curCol : Half
  curPage : Half
  auto : Bool
  measW : Half
  measH : Half
  rdata : Byte
  fault : Bool
  busy : Bool
  deriving DecidableEq, Repr, Inhabited

namespace Config

/-- FREE VALUE: the byte of the font port at an address (20_memory R62, R63; log entry 4). -/
opaque fontByte : Nat → Byte

/-- FREE VALUE: AUTO_DEFAULT (70 R282; log entry 3). -/
opaque autoDefault : Bool

/-- FREE VALUE: TX_TIMEOUT (20_memory R67; log entry 5). -/
opaque txTimeout : Nat

/-- FREE VALUE: FB_RESET. `fbReset n a` is the byte at index `a` after reset number `n` (70 R283; log entry 2). -/
opaque fbReset : Nat → Nat → Byte

/-- FREE VALUE: how many whole transactions of an abandoned command had been made when reset number `n` arrived
(70 R284; log entry 14). -/
opaque abandonTx : Nat → Nat

/-- FREE VALUE: to how many bytes the DATA in flight was cut by reset number `n` (70 R284; log entry 14). -/
opaque abandonBytes : Nat → Nat

/-- FREE VALUE: how many payload bytes of an abandoned command had been taken (70 R284; log entry 14). -/
opaque abandonStr : Nat → Nat

/-- FREE VALUE: the status wires other than BUSY and FAULT while BUSY = 1 (10_state R31; log entry 17). -/
opaque busyStatus : Nat → Status

end Config
end Sys2Proof
end

