-- ==== Sys2Proof/Machine/Params.lean ====
section
/-! DEFINITION. The machine's own parameters (00_scope R9): the free values, and the spec's value of LOWER_SUPPRESS_FROM. -/

namespace Sys2Proof.Machine

/-- LOWER_SUPPRESS_FROM = PAGES - 1, the spec's value (42 R167, 90 C7, 92 D27; log entry 6). -/
def lowerSuppressFrom : Nat := 7

/-- The 480 bytes of the font port in address order (20_memory R63). -/
def fontBytes : List Byte := (List.range 480).map Config.fontByte

/-- The parameters of the machine at reset (00_scope R9). -/
def machineParams : Params where
  font := fontBytes
  autoDefault := Config.autoDefault
  lowerSuppressFrom := lowerSuppressFrom
  txTimeout := Config.txTimeout

/-- The parameters the spec allows: 480 font bytes (20_memory R63), LOWER_SUPPRESS_FROM 7 or 8 (92, collected). -/
def paramsWf (p : Params) : Bool :=
  p.font.length == 480 && (p.lowerSuppressFrom == 7 || p.lowerSuppressFrom == 8)

end Sys2Proof.Machine
end

