-- ==== Sys2Proof/Machine/State.lean ====
section
/-! DEFINITION. The state (10_state R20, 20_memory R65, 70 R284, R294, R295), plain data, its value after reset, and the
reasons a step can stop. -/

namespace Sys2Proof.Machine

/-- One item on the transport channel (20_memory R65, R66). -/
inductive Transaction where
  /-- ADDR(column, page): the addressing collaborator's setWriteAddress. -/
  | addr (col page : Nat)
  /-- DATA(b_0 .. b_{n-1}): the transport collaborator's transmit; its length argument is the number of bytes. -/
  | data (bytes : List Byte)
  deriving DecidableEq, Repr

/-- The `rst` input as the next step finds it (70 R280, R284; log entry 13). -/
inductive ResetPin where
  /-- Not asserted. -/
  | low
  /-- Asserted between two commands. -/
  | high
  /-- Asserted while the next command to be accepted is in progress (70 R284). -/
  | inCommand
  deriving DecidableEq, Repr

/-- Why the machine stops. -/
inductive Fault where
  /-- Raised by the fetch when FAULT = 1: no frame is accepted until hardware reset (60 R262, R264). Safe. -/
  | halted
  /-- Raised by the fetch when BUSY = 1 is found between steps: a command that never completes, from which only reset
  recovers (10_state R30, 70 R293). Safe. -/
  | busy
  /-- Raised by PRINTSTR, PRINTSTRXY and MEASURE when STR holds fewer than LEN bytes: PFBC waits with BUSY = 1 for ever,
  which the spec calls stuck, with no successor state (70 R291 item b, 93 U15). Safe. -/
  | payloadShort
  /-- Raised by any command that emits a transaction while the transport does not accept: BUSY stays 1, stuck, with no
  successor state (70 R293, 93 U15). Safe. -/
  | transportStalled
  deriving DecidableEq, Repr

/-- Why an instruction has no meaning. -/
inductive Refusal where
  /-- Raised by `exec` for an instruction that has no meaning yet; no instruction of this model is. Safe. -/
  | notModelled (mnemonic : String)
  deriving DecidableEq, Repr

/-- The state of PFBC and of the channels at its ports. -/
structure State where
  /-- FONT, AUTO_DEFAULT, LOWER_SUPPRESS_FROM, TX_TIMEOUT: parameters, written by nothing (00_scope R9; log entry 7). -/
  params : Params
  /-- FB[0..1023] (10_state R20, 20_memory R51). -/
  fb : Memory
  /-- CUR_COL, 16-bit two's complement, not clamped (10_state R24). -/
  curCol : Half
  /-- CUR_PAGE, 16-bit two's complement, not clamped (10_state R25). -/
  curPage : Half
  /-- AUTO, the update-mode flag (10_state R26). -/
  auto : Bool
  /-- MEAS_W, unsigned (10_state R27). -/
  measW : Half
  /-- MEAS_H, unsigned (10_state R27). -/
  measH : Half
  /-- RDATA (10_state R28). -/
  rdata : Byte
  /-- FAULT, sticky (10_state R29). -/
  fault : Bool
  /-- BUSY: 1 from the acceptance of a frame until its command has completed (10_state R30). -/
  busy : Bool
  /-- The frames the host presents on CMD, oldest first (30_encoding R80, 70 R295; log entry 1). -/
  cmd : List Frame
  /-- The payload bytes the host supplies on STR, oldest first (30_encoding R83; log entry 1). -/
  str : List Byte
  /-- The transactions emitted since reset, oldest first (20_memory R65, 70 R295). -/
  history : List Transaction
  /-- The transactions made before the last reset: they stand (70 R284; log entry 14). -/
  past : List Transaction
  /-- The `rst` input (70 R280; log entry 13). -/
  rst : ResetPin
  /-- Whether the transport has stopped accepting transactions (70 R293; log entry 11). -/
  stalled : Bool
  /-- The model's own: the number of resets so far, which picks the free values of the next one (log entries 2, 14). -/
  resets : Nat
  deriving DecidableEq, Repr

/-- The machine right after reset (70 R281 to R284): the registers 0, AUTO = AUTO_DEFAULT, the framebuffer FB_RESET (free),
an empty history; the host has presented nothing yet (log entries 1, 11, 13). -/
def State.reset : State where
  params := machineParams
  fb := Memory.ofBytes (Config.fbReset 0)
  curCol := 0
  curPage := 0
  auto := machineParams.autoDefault
  measW := 0
  measH := 0
  rdata := 0
  fault := false
  busy := false
  cmd := []
  str := []
  history := []
  past := []
  rst := .low
  stalled := false
  resets := 0

end Sys2Proof.Machine
end

