-- ==== Sys2Proof/Machine/Flags.lean ====
section
/-! DEFINITION. The three 1-bit flags of PFBC and what writes them (10_state R26, R29, R30, R32). There are no condition
codes: no outcome of an operation is recorded anywhere. -/

namespace Sys2Proof.Machine

/-- x[AUTO] <- b (45 R251). -/
def State.setAuto (s : State) (b : Bool) : State := { s with auto := b }

/-- x[FAULT] <- b (60 R262). -/
def State.setFault (s : State) (b : Bool) : State := { s with fault := b }

/-- BUSY at the acceptance and at the completion of a command (10_state R30). -/
def State.setBusy (s : State) (b : Bool) : State := { s with busy := b }

end Sys2Proof.Machine
end

