-- ==== Sys2Proof/Machine/Ops.lean ====
section
/-! DEFINITION. The named operations: the store primitives, the font port, the transport channel, the end of a command, the
exception and the reset (20_memory, 44_flush section 1, 60_exceptions section 2, 70_reset_and_hazards section 1). -/

namespace Sys2Proof.Machine

/-! ### Register and channel writes -/

def State.setFb (s : State) (fb : Memory) : State := { s with fb := fb }
def State.setCursor (s : State) (col page : Half) : State := { s with curCol := col, curPage := page }
def State.setMeas (s : State) (w h : Half) : State := { s with measW := w, measH := h }
def State.setRdata (s : State) (v : Byte) : State := { s with rdata := v }
def State.setCmd (s : State) (cmd : List Frame) : State := { s with cmd := cmd }
def State.setStr (s : State) (str : List Byte) : State := { s with str := str }

/-- Emit of the transactions in order (20_memory R65, R71). -/
def State.emit (s : State) (ts : List Transaction) : State := { s with history := s.history ++ ts }

/-! ### Integer ranges and the 16-bit wrap -/

/-- The integers a, a + 1, ..., b; none when a > b. -/
def span (a b : Int) : List Int := (List.range (b + 1 - a).toNat).map fun k : Nat => a + (k : Int)

/-- wrap16: reduction to 16-bit two's complement (41 R143). -/
def wrap16 (v : Int) : Half := BitVec.ofInt 16 v

/-! ### The store primitives (20_memory R51 to R60) -/

/-- InRange(c, p) (20_memory R54). -/
def inRange (c p : Int) : Bool := decide (0 ≤ c) && decide (c < 128) && decide (0 ≤ p) && decide (p < 8)

/-- Idx(c, p) = p*128 + c (20_memory R51). -/
def idx (c p : Int) : Nat := (p * 128 + c).toNat

/-- FbGet (20_memory R55). -/
def fbGet (fb : Memory) (c p : Int) : Byte := if inRange c p then fb.read (idx c p) else 0

/-- FbSet (20_memory R56). -/
def fbSet (fb : Memory) (c p : Int) (v : Byte) : Memory := if inRange c p then fb.write (idx c p) v else fb

/-- FbOr (20_memory R57). -/
def fbOr (fb : Memory) (c p : Int) (m : Byte) : Memory :=
  if inRange c p then fb.write (idx c p) (fb.read (idx c p) ||| m) else fb

/-- FbAndNot (20_memory R58). -/
def fbAndNot (fb : Memory) (c p : Int) (m : Byte) : Memory :=
  if inRange c p then fb.write (idx c p) (fb.read (idx c p) &&& ~~~m) else fb

/-- Apply(c, p, m, inv) (20_memory R59). -/
def apply (fb : Memory) (c p : Int) (m : Byte) (inv : Bool) : Memory :=
  if inv then fbAndNot fb c p m else fbOr fb c p m

/-- The pixel at column x, row y: bit y mod 8 of the byte of page y div 8 (20_memory R52). -/
def pixel (fb : Memory) (x y : Int) : Bool := (fb.read (idx x (y / 8))).getLsbD (y % 8).toNat

/-- The arguments c, p, m of one Apply. -/
structure MaskWrite where
  col : Int
  page : Int
  mask : Byte
  deriving DecidableEq, Repr

/-- The Apply calls of a drawing rule in its order, all with the same inv (20_memory R59, R61). -/
def applyAll (inv : Bool) : List MaskWrite → Memory → Memory
  | [], fb => fb
  | w :: ws, fb => applyAll inv ws (apply fb w.col w.page w.mask inv)

/-- A drawing rule's writes on the framebuffer. -/
def State.draw (s : State) (inv : Bool) (ws : List MaskWrite) : State := s.setFb (applyAll inv ws s.fb)

/-! ### The font port (20_memory R62 to R64) -/

/-- The place of a character code among the 96 printable ones; none outside [0x20, 0x7F] (00_scope R7, 20_memory R64). -/
def glyphSlot (ch : Byte) : Option (Fin 96) :=
  if h : 0x20 ≤ ch.toNat ∧ ch.toNat ≤ 0x7F then some ⟨ch.toNat - 0x20, by omega⟩ else none

/-- Glyph(code, i): the font byte at address (code - 0x20)*5 + i (20_memory R62, R63). The code is one of the 96 values,
since lookups of others never occur (20_memory R64, 93 U2). -/
def glyph (p : Params) (g : Fin 96) (i : Nat) : Byte := p.font.getD (g.val * 5 + i) 0

/-! ### The dispatcher (44 R230, R231) -/

/-- The transactions of Flush(c0, c1, p0, p1): each bound clamped on its own side, pages ascending, one ADDR and one DATA a
page (44 R230). -/
def flushTransactions (fb : Memory) (c0 c1 p0 p1 : Int) : List Transaction :=
  let cs := max c0 0
  let ce := min c1 127
  let ps := max p0 0
  let pe := min p1 7
  if cs > ce ∨ ps > pe then []
  else (span ps pe).flatMap fun p =>
    [.addr cs.toNat p.toNat, .data ((span cs ce).map fun c => fb.read (idx c p))]

/-- Flush(c0, c1, p0, p1) (44 R230). -/
def State.flush (s : State) (c0 c1 p0 p1 : Int) : State := s.emit (flushTransactions s.fb c0 c1 p0 p1)

/-- AutoFlush(c0, c1, p0, p1) (44 R231). -/
def State.autoFlush (s : State) (c0 c1 p0 p1 : Int) : State :=
  if s.auto then s.flush c0 c1 p0 p1 else s

/-- The arguments of the transport collaborator's transmit(payload, length, timeout) for a DATA: the length is the number of
bytes, the timeout TX_TIMEOUT handed through unchanged (20_memory R65, R67). -/
def transmitArguments (p : Params) : Transaction → Option (List Byte × Nat × Nat)
  | .addr _ _ => none
  | .data bytes => some (bytes, bytes.length, p.txTimeout)

/-! ### The end of a command -/

/-- The end of a command that takes `s` to `t`: if it emits a transaction and the transport does not accept, BUSY stays 1 and
there is no successor (70 R293); otherwise BUSY falls (10_state R30). -/
def complete (s t : State) : Host.Outcome State Fault Refusal :=
  if s.stalled && t.history.length != s.history.length then .fault .transportStalled
  else .next (t.setBusy false)

/-! ### The one exception and the only way out of it -/

/-- raise IllegalCommand: FAULT becomes 1, BUSY returns to 0, nothing else changes (60 R262). -/
def raiseIllegalCommand (s : State) : State := (s.setFault true).setBusy false

/-- Hardware reset, the only exit from the fault state (60 R264, 70 R280 to R284): the registers at their reset values, the
framebuffer a fresh free value, the history empty. The transactions already made stand, in `past`. The host's channels, the
transport and the parameters are not PFBC's to reset; the pin returns to low (log entries 2, 13, 14). -/
def hardwareReset (s : State) : State :=
  { params := s.params
    fb := Memory.ofBytes (Config.fbReset (s.resets + 1))
    curCol := 0
    curPage := 0
    auto := s.params.autoDefault
    measW := 0
    measH := 0
    rdata := 0
    fault := false
    busy := false
    cmd := s.cmd
    str := s.str
    history := []
    past := s.past ++ s.history
    rst := .low
    stalled := s.stalled
    resets := s.resets + 1 }

/-! ### The status wires -/

/-- What the host sees (10_state R31): while BUSY = 1 only BUSY and FAULT are specified, the rest is a free value. -/
def State.status (s : State) : Status :=
  if s.busy then { Config.busyStatus s.history.length with fault := s.fault, busy := true }
  else
    { curCol := s.curCol, curPage := s.curPage, auto := s.auto, measW := s.measW, measH := s.measH,
      rdata := s.rdata, fault := s.fault, busy := false }

end Sys2Proof.Machine
end

