-- ==== Sys2Proof/Machine/Operands.lean ====
section
/-! DEFINITION. The operand forms (30_encoding R85, R83; 43 R200 to R205): signed fields, unsigned bytes, the counted
payload, and the two corners of a rectangle. -/

namespace Sys2Proof.Machine

/-- sext_16 of a field: a coordinate, column or page (30_encoding R85). -/
def coord (h : Half) : Int := h.toInt

/-- zext_8 of C[7:0]: LEN (30_encoding R83, R85). -/
def count (b : Byte) : Nat := b.toNat

/-- The LEN payload bytes of a string command and the state in which STR no longer holds them; none if STR holds fewer
(30_encoding R83, 70 R291 item b). All LEN bytes are taken, whatever the command then does with them. -/
def takePayload (len : Byte) (s : State) : Option (List Byte × State) :=
  if count len ≤ s.str.length then some (s.str.take (count len), s.setStr (s.str.drop (count len))) else none

/-- A string command: nothing if the string is absent (30_encoding R83), else the payload is taken and `body` does the rest; a
short payload leaves PFBC waiting for ever (70 R291 item b). -/
def withString (absent : Bool) (len : Byte) (s : State) (body : List Byte → State → State) :
    Host.Outcome State Fault Refusal :=
  if absent then complete s s
  else
    match takePayload len s with
    | none => .fault .payloadShort
    | some (bytes, s') => complete s (body bytes s')

/-- A normalised rectangle: columns xs..xe, rows ys..ye, all inclusive (43 R200, R201). -/
structure Box where
  xs : Int
  xe : Int
  ys : Int
  ye : Int
  deriving DecidableEq, Repr

/-- Normalisation of two opposite corners in any order (43 R201). -/
def boxOf (x0 y0 x1 y1 : Half) : Box where
  xs := min (coord x0) (coord x1)
  xe := max (coord x0) (coord x1)
  ys := min (coord y0) (coord y1)
  ye := max (coord y0) (coord y1)

/-- Whether the rectangle is fully outside the buffer on an axis (43 R202). -/
def Box.rejected (b : Box) : Bool :=
  decide (b.xe < 0) || decide (b.xs ≥ 128) || decide (b.ye < 0) || decide (b.ys ≥ 64)

/-- top_vis (43 R203). -/
def Box.topVis (b : Box) : Bool := decide (b.ys ≥ 0)

/-- bot_vis (43 R203). -/
def Box.botVis (b : Box) : Bool := decide (b.ye ≤ 63)

/-- left_vis (43 R205). -/
def Box.leftVis (b : Box) : Bool := decide (b.xs ≥ 0)

/-- right_vis (43 R205). -/
def Box.rightVis (b : Box) : Bool := decide (b.xe ≤ 127)

/-- ps, the first page (43 R203). -/
def Box.ps (b : Box) : Int := if b.topVis then b.ys / 8 else 0

/-- pe, the last page (43 R203). -/
def Box.pe (b : Box) : Int := if b.botVis then b.ye / 8 else 7

/-- um, the upper mask: bits ys mod 8 .. 7 (43 R203, R204; 90 C1). -/
def Box.um (b : Box) : Byte := if b.topVis then (0xFF : Byte) <<< (b.ys % 8).toNat else 0xFF

/-- lm, the lower mask: bits 0 .. ye mod 8 (43 R203, R204; 90 C1). -/
def Box.lm (b : Box) : Byte := if b.botVis then (0xFF : Byte) >>> (7 - (b.ye % 8).toNat) else 0xFF

/-- cm, the combined mask of a rectangle on one page (43 R203). -/
def Box.cm (b : Box) : Byte := b.um &&& b.lm

/-- The single bit of a row inside its page: 0x01 << (y mod 8) (43 R204, R216). -/
def rowBit (y : Int) : Byte := (1 : Byte) <<< (y % 8).toNat

/-- The first visible column, max(xs, 0) (43 R220, R223). -/
def Box.cs (b : Box) : Int := max b.xs 0

/-- The last visible column, min(xe, 127) (43 R220, R223). -/
def Box.ce (b : Box) : Int := min b.xe 127

end Sys2Proof.Machine
end

