-- ==== Sys2Proof/Machine/Control.lean ====
section
/-! DEFINITION. The control commands INIT and SETMODE (45_control). Neither emits a transaction. -/

namespace Sys2Proof.Machine

/-- The state INIT leaves: everything of 10_state R20 but FAULT and BUSY (45 R250). -/
def initialise (s : State) : State :=
  ((((s.setFb Memory.clear).setCursor 0 0).setAuto s.params.autoDefault).setMeas 0 0).setRdata 0

/-- INIT (45 R250). -/
def execInit (s : State) : Host.Outcome State Fault Refusal :=
  complete s (initialise s)

/-- SETMODE (45 R251): the flag takes AUTOBIT; it does not flip. -/
def execSetmode (auto : Bool) (s : State) : Host.Outcome State Fault Refusal :=
  complete s (s.setAuto auto)

end Sys2Proof.Machine
end

