-- ==== Sys2Proof/Machine/CursorText.lean ====
section
/-! DEFINITION. Page-aligned text at the cursor: SETCURSOR, PUTCHAR, PRINTSTR (41_text_cursor). -/

namespace Sys2Proof.Machine

/-- The writes of one glyph at a cursor: columns col, col + 1, ..., left once a column reaches 128 (41 R141). Negative columns
and pages outside [0, 7] are ignored by the store. -/
def cursorWrites (p : Params) (g : Fin 96) (col page : Int) : List MaskWrite :=
  ((List.range 5).takeWhile fun i : Nat => decide (col + (i : Int) < 128)).map fun i : Nat =>
    { col := col + (i : Int), page := page, mask := glyph p g i }

/-- CharAtCursor(ch, inv) (41 R141 to R144): an invalid code is drawn as the space glyph, slot 0; the flush is of the columns
before the advance, after the writes; the cursor always advances by 6. -/
def charAtCursor (ch : Byte) (inv : Bool) (s : State) : State :=
  let g := (glyphSlot ch).getD 0
  let col := coord s.curCol
  let page := coord s.curPage
  let drawn := s.draw inv (cursorWrites s.params g col page)
  (drawn.autoFlush col (col + 4) page page).setCursor (wrap16 (col + 6)) s.curPage

/-- The characters of PRINTSTR, each with its own flush and advance (41 R150). -/
def printAtCursor (inv : Bool) : List Byte → State → State
  | [], s => s
  | ch :: rest, s => printAtCursor inv rest (charAtCursor ch inv s)

/-- SETCURSOR (41 R140): both operands are stored unchanged. -/
def execSetcursor (col page : Half) (s : State) : Host.Outcome State Fault Refusal :=
  complete s (s.setCursor col page)

/-- PUTCHAR (41 R141). -/
def execPutchar (inv : Bool) (ch : Byte) (s : State) : Host.Outcome State Fault Refusal :=
  complete s (charAtCursor ch inv s)

/-- PRINTSTR (41 R150). -/
def execPrintstr (inv absent : Bool) (len : Byte) (s : State) : Host.Outcome State Fault Refusal :=
  withString absent len s (printAtCursor inv)

end Sys2Proof.Machine
end

