-- ==== Sys2Proof/Machine/FlushCommands.lean ====
section
/-! DEFINITION. The explicit flush commands FLUSHALL, FLUSHREGION, CLEARFLUSH, independent of AUTO (44_flush section 2). -/

namespace Sys2Proof.Machine

/-- FLUSHALL (44 R232): Flush(0, 127, 0, 7). -/
def execFlushall (s : State) : Host.Outcome State Fault Refusal :=
  complete s (s.flush 0 127 0 7)

/-- FLUSHREGION (44 R233): Flush of the given bounds, which are not swapped. -/
def execFlushregion (c0 p0 c1 p1 : Half) (s : State) : Host.Outcome State Fault Refusal :=
  complete s (s.flush (coord c0) (coord c1) (coord p0) (coord p1))

/-- CLEARFLUSH (44 R234): FbClear(), then the full flush. -/
def execClearflush (s : State) : Host.Outcome State Fault Refusal :=
  complete s ((s.setFb Memory.clear).flush 0 127 0 7)

end Sys2Proof.Machine
end

