-- ==== Sys2Proof/Machine/Rect.lean ====
section
/-! DEFINITION. The rectangle rasterizer: DRAWRECT and FILLRECT (43_rect). -/

namespace Sys2Proof.Machine

/-- The bytes of one full-height column of the rectangle: the combined mask on a single page, else the upper mask on the first
page, the lower mask on the last and 0xFF strictly between (43 R210, R215, R217, R220). -/
def columnWrites (b : Box) (c : Int) : List MaskWrite :=
  if b.ps = b.pe then [{ col := c, page := b.ps, mask := b.cm }]
  else
    { col := c, page := b.ps, mask := b.um } :: { col := c, page := b.pe, mask := b.lm } ::
      (span (b.ps + 1) (b.pe - 1)).map fun p => { col := c, page := p, mask := 0xFF }

/-- The writes of FILLRECT: every visible column (43 R220). -/
def fillWrites (b : Box) : List MaskWrite := (span b.cs b.ce).flatMap (columnWrites b)

/-- The horizontal edges' two bits in one interior column, each only if its edge is visible (43 R210, R216). -/
def edgeColumn (b : Box) (c : Int) : List MaskWrite :=
  (if b.topVis then [{ col := c, page := b.ps, mask := rowBit b.ys }] else []) ++
    (if b.botVis then [{ col := c, page := b.pe, mask := rowBit b.ye }] else [])

/-- The writes of DRAWRECT: the horizontal edges across the interior columns, then the left and the right edge, each only if
visible (43 R210, R215 to R217). -/
def outlineWrites (b : Box) : List MaskWrite :=
  (span (max (b.xs + 1) 0) (min (b.xe - 1) 127)).flatMap (edgeColumn b) ++
    ((if b.leftVis then columnWrites b b.xs else []) ++ (if b.rightVis then columnWrites b b.xe else []))

/-- A rectangle command: nothing if rejected (43 R202), else the writes and then the flush of the bounding span (43 R223). -/
def drawBox (writes : Box → List MaskWrite) (inv : Bool) (b : Box) (s : State) : State :=
  if b.rejected then s else (s.draw inv (writes b)).autoFlush b.cs b.ce b.ps b.pe

/-- DRAWRECT (43 R210). -/
def execDrawrect (inv : Bool) (x0 y0 x1 y1 : Half) (s : State) : Host.Outcome State Fault Refusal :=
  complete s (drawBox outlineWrites inv (boxOf x0 y0 x1 y1) s)

/-- FILLRECT (43 R220). -/
def execFillrect (inv : Bool) (x0 y0 x1 y1 : Half) (s : State) : Host.Outcome State Fault Refusal :=
  complete s (drawBox fillWrites inv (boxOf x0 y0 x1 y1) s)

end Sys2Proof.Machine
end

