-- ==== Sys2Proof/Machine/Store.lean ====
section
/-! DEFINITION. The store commands CLEAR, GETB, SETB, ORB, ANDNB (40_store). None emits a transaction in either mode (R120). -/

namespace Sys2Proof.Machine

/-- CLEAR (40 R121): FbClear(). -/
def execClear (s : State) : Host.Outcome State Fault Refusal :=
  complete s (s.setFb Memory.clear)

/-- GETB (40 R122): RDATA takes the byte if (col, page) is in range; otherwise nothing. -/
def execGetb (col page : Half) (s : State) : Host.Outcome State Fault Refusal :=
  complete s
    (if inRange (coord col) (coord page) then s.setRdata (fbGet s.fb (coord col) (coord page)) else s)

/-- SETB (40 R123): FbSet(col, page, v). -/
def execSetb (col page : Half) (v : Byte) (s : State) : Host.Outcome State Fault Refusal :=
  complete s (s.setFb (fbSet s.fb (coord col) (coord page) v))

/-- ORB (40 R124): FbOr(col, page, m). -/
def execOrb (col page : Half) (m : Byte) (s : State) : Host.Outcome State Fault Refusal :=
  complete s (s.setFb (fbOr s.fb (coord col) (coord page) m))

/-- ANDNB (40 R125): FbAndNot(col, page, m). -/
def execAndnb (col page : Half) (m : Byte) (s : State) : Host.Outcome State Fault Refusal :=
  complete s (s.setFb (fbAndNot s.fb (coord col) (coord page) m))

end Sys2Proof.Machine
end

