-- ==== Sys2Proof/Machine/XyText.lean ====
section
/-! DEFINITION. Arbitrary-pixel text and measurement: PUTCHARXY, PRINTSTRXY, MEASURE (42_text_xy). -/

namespace Sys2Proof.Machine

/-- The off-canvas test of one character; 133 = COLUMNS + 5, 72 = ROWS + 8 (42 R162). -/
def offCanvas (x y : Int) : Bool :=
  decide (x ≤ -5) || decide (x ≥ 133) || decide (y ≤ -8) || decide (y ≥ 72)

/-- The writes of the page-aligned regime: columns below 0 skipped, the loop left at column 128 (42 R164). -/
def alignedWrites (p : Params) (g : Fin 96) (x pu : Int) : List MaskWrite :=
  (((List.range 5).takeWhile fun i : Nat => decide (x + (i : Int) < 128)).filter fun i : Nat =>
      decide (0 ≤ x + (i : Int))).map fun i : Nat =>
    { col := x + (i : Int), page := pu, mask := glyph p g i }

/-- The two writes of one glyph column in the page-crossing regime: the byte shifted left by s into the upper page, unless that
lies above row 0, and shifted right by 8 - s into the lower page, unless that is suppressed (42 R165 to R167). -/
def splitColumn (p : Params) (g : Fin 96) (x pu : Int) (s i : Nat) : List MaskWrite :=
  let upper : MaskWrite := { col := x + (i : Int), page := pu, mask := glyph p g i <<< s }
  let lower : MaskWrite := { col := x + (i : Int), page := pu + 1, mask := glyph p g i >>> (8 - s) }
  (if 0 ≤ pu then [upper] else []) ++ (if pu + 1 < (p.lowerSuppressFrom : Int) then [lower] else [])

/-- The writes of the page-crossing regime (42 R165). -/
def splitWrites (p : Params) (g : Fin 96) (x pu : Int) (s : Nat) : List MaskWrite :=
  (List.range 5).flatMap (splitColumn p g x pu s)

/-- CharAtXY(ch, x, y, inv) (42 R160): an invalid code or an off-canvas position does nothing at all (R161, R162); page and
shift by floor division (R163); the flush covers one page or both (R168). -/
def charAtXY (ch : Byte) (x y : Int) (inv : Bool) (s : State) : State :=
  match glyphSlot ch with
  | none => s
  | some g =>
    if offCanvas x y then s
    else
      let shift := (y % 8).toNat
      let pu := y / 8
      if shift = 0 then
        (s.draw inv (alignedWrites s.params g x pu)).autoFlush x (x + 4) pu pu
      else
        (s.draw inv (splitWrites s.params g x pu shift)).autoFlush x (x + 4) pu (pu + 1)

/-- The loop of Measure: widest line so far, current line, height (42 R191). -/
def measureFrom : List Byte → Nat → Nat → Nat → Nat × Nat
  | [], w, line, h => (max w line, h)
  | b :: rest, w, line, h =>
    if b = 0x0A then measureFrom rest (max w line) 0 (h + 8)
    else if b = 0x0D then measureFrom rest w line h
    else measureFrom rest w (line + 6) h

/-- Measure(s): width and height in pixels (42 R191). -/
def measureString (str : List Byte) : Nat × Nat := measureFrom str 0 0 8

/-- The rejection test of PRINTSTRXY, on the measured width and the initial y (42 R181). -/
def stringRejected (x y : Int) (w : Nat) : Bool :=
  decide (x + (w : Int) ≤ 0) || decide (x ≥ 128) || decide (y ≤ -8) || decide (y ≥ 72)

/-- The walk of PRINTSTRXY from (cx, cy), the line starting at x: 0x0A goes to the next line and ends the command at row 64 or
below; every other byte is drawn if it can be and advances by 6 (42 R180, R182, R183). -/
def walkXY (x : Int) (inv : Bool) : List Byte → Int → Int → State → State
  | [], _, _, s => s
  | b :: rest, cx, cy, s =>
    if b = 0x0A then
      if cy + 8 ≥ 64 then s else walkXY x inv rest x (cy + 8) s
    else walkXY x inv rest (cx + 6) cy (charAtXY b cx cy inv s)

/-- PRINTSTRXY's effect once its payload is taken (42 R180). The measurement is not stored. -/
def printAtXY (x y : Int) (inv : Bool) (str : List Byte) (s : State) : State :=
  if stringRejected x y (measureString str).1 then s else walkXY x inv str x y s

/-- MEASURE's effect once its payload is taken (42 R190). -/
def storeMeasure (str : List Byte) (s : State) : State :=
  s.setMeas (BitVec.ofNat 16 (measureString str).1) (BitVec.ofNat 16 (measureString str).2)

/-- PUTCHARXY (42 R160). -/
def execPutcharxy (inv : Bool) (ch : Byte) (x y : Half) (s : State) : Host.Outcome State Fault Refusal :=
  complete s (charAtXY ch (coord x) (coord y) inv s)

/-- PRINTSTRXY (42 R180). -/
def execPrintstrxy (inv absent : Bool) (len : Byte) (x y : Half) (s : State) :
    Host.Outcome State Fault Refusal :=
  withString absent len s (printAtXY (coord x) (coord y) inv)

/-- MEASURE (42 R190). -/
def execMeasure (absent : Bool) (len : Byte) (s : State) : Host.Outcome State Fault Refusal :=
  withString absent len s storeMeasure

end Sys2Proof.Machine
end

