-- ==== Sys2Proof/Machine/Dispatch.lean ====
section
/-! DEFINITION. One command on an accepted frame (30_encoding R90): one arm per constructor. -/

namespace Sys2Proof.Machine

/-- The effect of an accepted command. Acceptance itself (BUSY = 0, FAULT = 0) is the fetch's (10_state R30). -/
def exec (i : Instr) (s : State) : Host.Outcome State Fault Refusal :=
  match i with
  | .init => Sys2Proof.Machine.execInit s
  | .setcursor col page => Sys2Proof.Machine.execSetcursor col page s
  | .clear => Sys2Proof.Machine.execClear s
  | .clearflush => Sys2Proof.Machine.execClearflush s
  | .putchar inv ch => Sys2Proof.Machine.execPutchar inv ch s
  | .printstr inv absent len => Sys2Proof.Machine.execPrintstr inv absent len s
  | .putcharxy inv ch x y => Sys2Proof.Machine.execPutcharxy inv ch x y s
  | .printstrxy inv absent len x y => Sys2Proof.Machine.execPrintstrxy inv absent len x y s
  | .drawrect inv x0 y0 x1 y1 => Sys2Proof.Machine.execDrawrect inv x0 y0 x1 y1 s
  | .fillrect inv x0 y0 x1 y1 => Sys2Proof.Machine.execFillrect inv x0 y0 x1 y1 s
  | .measure absent len => Sys2Proof.Machine.execMeasure absent len s
  | .flushall => Sys2Proof.Machine.execFlushall s
  | .flushregion c0 p0 c1 p1 => Sys2Proof.Machine.execFlushregion c0 p0 c1 p1 s
  | .setmode auto => Sys2Proof.Machine.execSetmode auto s
  | .getb col page => Sys2Proof.Machine.execGetb col page s
  | .setb col page v => Sys2Proof.Machine.execSetb col page v s
  | .orb col page m => Sys2Proof.Machine.execOrb col page m s
  | .andnb col page m => Sys2Proof.Machine.execAndnb col page m s

end Sys2Proof.Machine
end

