-- ==== Sys2Proof/Machine/Fetch.lean ====
section
/-! DEFINITION. How the next command comes to run: the reset input, the acceptance of a frame from CMD, the illegal frame
(10_state R23, R29, R30; 60_exceptions R262, R263; 70_reset_and_hazards R280, R284). -/

namespace Sys2Proof.Machine

/-- Acceptance of a frame: it leaves CMD and BUSY rises (10_state R30). -/
def accept (rest : List Frame) (s : State) : State := (s.setCmd rest).setBusy true

/-! ### A reset that arrives inside a command (70 R284) -/

/-- The command as far as its payload lets it come: a PRINTSTR whose payload is short draws the characters it was given
before it waits (41 R150); every other command is what it is. -/
def reachable (i : Instr) (s : State) : Instr :=
  match i with
  | .printstr inv false len => .printstr inv false (if s.str.length < len.toNat then BitVec.ofNat 8 s.str.length else len)
  | j => j

/-- The transactions the command makes if nothing stops it; none for a PRINTSTRXY or MEASURE whose payload is short, which
measures the whole string before it draws (42 R180, R190). -/
def transactionsOf (i : Instr) (s : State) : List Transaction :=
  match exec (reachable i s) { s with stalled := false } with
  | .next t => t.history.drop s.history.length
  | .fault _ => []
  | .refused _ => []

/-- The transactions made when reset number `n` arrives: a free number of whole ones, and of the next one, if it is a DATA in
flight, a free number of bytes (70 R284; log entry 14). -/
def cutTransactions (n : Nat) (ts : List Transaction) : List Transaction :=
  let k := Config.abandonTx n
  let inFlight :=
    match ts[k]? with
    | some (.data bytes) => if Config.abandonBytes n = 0 then [] else [.data (bytes.take (Config.abandonBytes n))]
    | _ => []
  ts.take k ++ inFlight

/-- The command `i` is abandoned: what it had sent stands, a free part of its payload is taken, and the block is in the reset
state (70 R284). -/
def abandon (i : Instr) (s : State) : State :=
  let sent := cutTransactions s.resets (transactionsOf i s)
  let taken := min (payloadLength i) (Config.abandonStr s.resets)
  hardwareReset ((s.emit sent).setStr (s.str.drop taken))

/-- The step in which `rst` arrives inside the next command: if none is accepted, or its frame is illegal, there is nothing to
abandon. -/
def resetInCommand (s : State) : State :=
  if s.fault || s.busy then hardwareReset s
  else
    match s.cmd with
    | [] => hardwareReset s
    | f :: rest =>
      match decode f with
      | .error _ => hardwareReset (s.setCmd rest)
      | .ok i => abandon i (accept rest s)

/-! ### The fetch -/

/-- What the machine finds to do: an outcome already settled, or a command to run on the state after its acceptance. -/
inductive Fetched where
  | settled (o : Host.Outcome State Fault Refusal)
  | run (i : Instr) (s : State)

/-- The frame at the head of CMD: an illegal one raises IllegalCommand before any effect, a legal one is a command to run
(60 R262, R263). -/
def fetchFrame (f : Frame) (s : State) : Fetched :=
  match decode f with
  | .error _ => .settled (.next (raiseIllegalCommand s))
  | .ok i => .run i s

/-- One look at the ports. `rst` comes first (70 R280); with FAULT = 1 or BUSY = 1 no frame is accepted and there is no
successor (60 R264, 70 R293); with no frame presented the block idles and holds its state (60 R275). -/
def fetch (s : State) : Fetched :=
  match s.rst with
  | .high => .settled (.next (hardwareReset s))
  | .inCommand => .settled (.next (resetInCommand s))
  | .low =>
    if s.fault then .settled (.fault .halted)
    else if s.busy then .settled (.fault .busy)
    else
      match s.cmd with
      | [] => .settled (.next s)
      | f :: rest => fetchFrame f (accept rest s)

/-- The host presents a frame in front of all others, with as many payload bytes of 0 as the frame announces (30_encoding
R103), at a block that is ready to accept it. -/
def presentFrame (f : Frame) (s : State) : State :=
  { s with
    cmd := f :: s.cmd
    str := List.replicate (framePayload f) 0 ++ s.str
    rst := .low
    fault := false
    busy := false }

end Sys2Proof.Machine
end

