-- ==== Sys2Proof/Machine/Step.lean ====
section
/-! DEFINITION. One step of the machine: one command, atomically (70 R292, 92 D1). -/

namespace Sys2Proof.Machine

/-- One step: what the fetch finds, with `exec` for a command. -/
def step (s : State) : Host.Outcome State Fault Refusal :=
  match fetch s with
  | .settled o => o
  | .run i t => exec i t

/-- `s` with the instruction numbered as opcode_table.json numbers it presented on CMD, so that the next step runs it
(log entry 1). -/
def State.withFetchWord (s : State) (nbits w : Nat) : State := presentFrame (tableFrame nbits w) s

end Sys2Proof.Machine
end

