-- ==== Sys2Proof/Machine/Commands.lean ====
section
/-! DEFINITION. The host's side of the ports: a command with its payload, the list of commands a run presents (30_encoding R80,
R83; 70 R294, R295), and the text in which the spec writes commands (30_encoding R105). -/

namespace Sys2Proof.Machine

/-- One command as the host issues it: its instruction and the payload that follows the frame (30_encoding R80, R83). -/
structure Command where
  instr : Instr
  payload : List Byte
  deriving DecidableEq, Repr

/-- The host's duties for one command: a frame with every unused bit 0 and exactly the announced payload (70 R294). -/
def Command.wf (c : Command) : Bool := c.instr.wellFormed && c.payload.length == payloadLength c.instr

/-- The host presents the commands, in order, after what it has presented already (70 R295; log entry 1). -/
def State.present (s : State) (cs : List Command) : State :=
  { s with
    cmd := s.cmd ++ cs.map fun c => encode c.instr
    str := s.str ++ cs.flatMap fun c => c.payload }

/-- The commands executed one after the other, stopping at the first that does not complete (30_encoding R110). -/
def execAll : List Instr → State → Host.Outcome State Fault Refusal
  | [], s => .next s
  | i :: rest, s =>
    match exec i s with
    | .next t => execAll rest t
    | .fault r => .fault r
    | .refused r => .refused r

/-! ### The written form (30_encoding R105) -/

/-- One hexadecimal digit. -/
def hexDigit (n : Nat) : String := String.singleton (("0123456789ABCDEF".toList).getD n '0')

/-- A payload byte inside a string literal, with the escapes of 30_encoding R105. -/
def byteText (b : Byte) : String :=
  let backslash := String.singleton (Char.ofNat 0x5C)
  if b = 0x0A then backslash ++ "n"
  else if b = 0x0D then backslash ++ "r"
  else if b = 0x5C ∨ b = 0x22 then backslash ++ String.singleton (Char.ofNat b.toNat)
  else if 0x20 ≤ b.toNat ∧ b.toNat ≤ 0x7E then String.singleton (Char.ofNat b.toNat)
  else backslash ++ "x" ++ hexDigit (b.toNat / 16) ++ hexDigit (b.toNat % 16)

/-- A string operand: a literal in double quotes, or NULL for an absent one (30_encoding R105). -/
def stringText (absent : Bool) (payload : List Byte) : String :=
  let quote := String.singleton (Char.ofNat 0x22)
  if absent then "NULL" else quote ++ payload.foldl (fun acc b => acc ++ byteText b) "" ++ quote

/-- A signed operand in decimal. -/
def coordText (h : Half) : String := toString (coord h)

/-- An unsigned byte operand in decimal. -/
def codeText (b : Byte) : String := toString b.toNat

/-- A mnemonic and its operands separated by commas. -/
def lineText (mnemonic : String) (operands : List String) : String :=
  if operands.isEmpty then mnemonic else mnemonic ++ " " ++ ", ".intercalate operands

/-- The trailing INV of the drawing commands. -/
def invText (inv : Bool) : List String := if inv then ["INV"] else []

/-- The line that writes the command: mnemonic, then the operands in the source's argument order (30_encoding R105). -/
def Command.text (c : Command) : String :=
  match c.instr with
  | .init => lineText "INIT" []
  | .setcursor col page => lineText "SETCURSOR" [coordText col, coordText page]
  | .clear => lineText "CLEAR" []
  | .clearflush => lineText "CLEARFLUSH" []
  | .putchar inv ch => lineText "PUTCHAR" ([codeText ch] ++ invText inv)
  | .printstr inv absent _ => lineText "PRINTSTR" ([stringText absent c.payload] ++ invText inv)
  | .putcharxy inv ch x y => lineText "PUTCHARXY" ([codeText ch, coordText x, coordText y] ++ invText inv)
  | .printstrxy inv absent _ x y =>
    lineText "PRINTSTRXY" ([stringText absent c.payload, coordText x, coordText y] ++ invText inv)
  | .drawrect inv x0 y0 x1 y1 =>
    lineText "DRAWRECT" ([coordText x0, coordText y0, coordText x1, coordText y1] ++ invText inv)
  | .fillrect inv x0 y0 x1 y1 =>
    lineText "FILLRECT" ([coordText x0, coordText y0, coordText x1, coordText y1] ++ invText inv)
  | .measure absent _ => lineText "MEASURE" [stringText absent c.payload]
  | .flushall => lineText "FLUSHALL" []
  | .flushregion c0 p0 c1 p1 =>
    lineText "FLUSHREGION" [coordText c0, coordText p0, coordText c1, coordText p1]
  | .setmode auto => lineText "SETMODE" [if auto then "AUTO" else "DEFER"]
  | .getb col page => lineText "GETB" [coordText col, coordText page]
  | .setb col page v => lineText "SETB" [coordText col, coordText page, codeText v]
  | .orb col page m => lineText "ORB" [coordText col, coordText page, codeText m]
  | .andnb col page m => lineText "ANDNB" [coordText col, coordText page, codeText m]

end Sys2Proof.Machine
end

