-- ==== Sys2Proof/Safety.lean ====
section
/-! DEFINITION. The terms in which claims are stated: the invariant of every run, how a run ends (70 R295), and what a
command leaves unchanged (10_state R36). -/

namespace Sys2Proof.Machine

/-- The history of a run is made of pairs: every ADDR is followed by its DATA of 1 to 128 bytes of one page, which end at or
before column 127 (20_memory R65, R66). -/
def historyPaired : List Transaction → Bool
  | [] => true
  | .addr c p :: .data bytes :: rest =>
    decide (p < 8) && decide (1 ≤ bytes.length) && decide (c + bytes.length ≤ 128) && historyPaired rest
  | _ => false

/-- The invariant of the model: the framebuffer is canonical, the parameters are the spec's, the history is made of
ADDR / DATA pairs, and BUSY is 0, as it is between two commands (10_state R30; log entry 8). -/
def Invariant (s : State) : Prop :=
  s.fb.wf = true ∧ paramsWf s.params = true ∧ historyPaired s.history = true ∧ s.busy = false

/-- A frame would be accepted: no reset, BUSY = 0 and FAULT = 0 (10_state R30). -/
def Accepting (s : State) : Prop := s.rst = .low ∧ s.fault = false ∧ s.busy = false

/-- The normal end of a run (70 R295). -/
def NormalEnd (s : State) : Prop := s.busy = false ∧ s.fault = false ∧ s.cmd = [] ∧ s.str = []

/-- The end of a run by fault (70 R295). -/
def FaultEnd (s : State) : Prop := s.fault = true

/-- The result of a run (70 R295). -/
def runResult (s : State) : Memory × Half × Half × Bool × Half × Half × Byte × List Transaction :=
  (s.fb, s.curCol, s.curPage, s.auto, s.measW, s.measH, s.rdata, s.history)

/-- The commands of 10_state R36 that draw: they change pixels through Apply (20_memory R59). -/
def draws : Instr → Bool
  | .putchar _ _ | .printstr _ _ _ | .putcharxy _ _ _ _ | .printstrxy _ _ _ _ _ => true
  | .drawrect _ _ _ _ _ | .fillrect _ _ _ _ _ => true
  | .init | .setcursor _ _ | .clear | .clearflush | .measure _ _ | .flushall | .flushregion _ _ _ _ => false
  | .setmode _ | .getb _ _ | .setb _ _ _ | .orb _ _ _ | .andnb _ _ _ => false

/-- The INV flag of a drawing command (30_encoding R82). -/
def inverted : Instr → Bool
  | .putchar inv _ | .printstr inv _ _ | .putcharxy inv _ _ _ | .printstrxy inv _ _ _ _ => inv
  | .drawrect inv _ _ _ _ | .fillrect inv _ _ _ _ => inv
  | .init | .setcursor _ _ | .clear | .clearflush | .measure _ _ | .flushall | .flushregion _ _ _ _ => false
  | .setmode _ | .getb _ _ | .setb _ _ _ | .orb _ _ _ | .andnb _ _ _ => false

/-- The data bytes of a list of transactions, in order (44 R236). -/
def dataBytes : List Transaction → List Byte
  | [] => []
  | .addr _ _ :: rest => dataBytes rest
  | .data bytes :: rest => bytes ++ dataBytes rest

/-- The byte a list of transactions last sends to a cell of the display, if it sends one (20_memory R65, R72): byte k of a DATA
goes to column c + k of the page of its ADDR(c, p). -/
def lastSent : List Transaction → Nat → Nat → Option Byte
  | .addr c p :: .data bytes :: rest, col, page =>
    match lastSent rest col page with
    | some b => some b
    | none => if p = page ∧ c ≤ col then bytes[col - c]? else none
  | _, _, _ => none

/-- Whether PUTCHARXY applies the pixel (px, py): bit py - y of the font byte at address (ch - 0x20)*5 + (px - x), for a printable
ch (20_memory R62, R63), but for the suppressed rows of the lower page (42 R169). -/
def glyphPixel (p : Params) (ch : Byte) (x y px py : Int) : Prop :=
  0x20 ≤ ch.toNat ∧ ch.toNat ≤ 0x7F ∧ 0 ≤ px - x ∧ px - x ≤ 4 ∧ 0 ≤ py - y ∧ py - y ≤ 7 ∧
    (∃ g : Byte, p.font[(ch.toNat - 0x20) * 5 + (px - x).toNat]? = some g ∧ g.getLsbD (py - y).toNat = true) ∧
    ¬(y % 8 ≠ 0 ∧ (p.lowerSuppressFrom : Int) ≤ y / 8 + 1 ∧ 8 * (y / 8 + 1) ≤ py)

/-- What of a command's transactions `ts` stands when a reset abandons it: the first `k` whole ones, and of a DATA in flight after
them its first `j` bytes (70 R284). -/
def cutShort (ts : List Transaction) (k j : Nat) : List Transaction :=
  ts.take k ++
    match ts[k]? with
    | some (.data bytes) => if j = 0 then [] else [.data (bytes.take j)]
    | _ => []

/-- The character cells the walk of PRINTSTRXY visits from (cx, cy), lines starting at x: every byte but 0x0A takes 6 columns,
0x0A starts the next line and ends the walk at row 64 (42 R180, R182, R183). -/
def walkCells (x : Int) : List Byte → Int → Int → List (Byte × Int × Int)
  | [], _, _ => []
  | b :: rest, cx, cy =>
    if b = 0x0A then (if 64 ≤ cy + 8 then [] else walkCells x rest x (cy + 8))
    else (b, cx, cy) :: walkCells x rest (cx + 6) cy

end Sys2Proof.Machine
end

