-- ==== Sys2Proof/Certificates/Slice0/Obligations.lean ====
section
/-! DEFINITION. The statements for the provers, from the numbered rules of spec/. Throughout, `s.stalled = false` is the
environment property of 70 R293 (the transport accepts), `s.fb.wf = true` the canonical form of the framebuffer, which
`Obligations.StepKeepsInvariant` shows every step to keep, and `{ s with ... }` names everything a command changes: what is
not named is unchanged. BUSY is low after every completed command (10_state R30). -/

open Sys2Proof Sys2Proof.Machine

/-! ### Encoding -/

/-- Frames of 95_test_vectors, one of each family and one of each kind of illegal frame, decode as the spec says (30_encoding R81,
R90, R100, R101). -/
def Obligations.SampleFramesDecode : Prop :=
  decode 0x0200000A000300000000 = .ok (.setcursor 10 3) ∧
  decode 0x05010000000000410000 = .ok (.putchar true 0x41) ∧
  decode 0x08000001000400050000 = .ok (.printstrxy false false 5 1 4) ∧
  decode 0x0A010003000500140028 = .ok (.fillrect true 3 5 20 40) ∧
  decode 0x0D00FFFD000600C80009 = .ok (.flushregion (-3) 6 200 9) ∧
  decode 0x0E040000000000000000 = .ok (.setmode true) ∧
  decode 0x11000005000200810000 = .ok (.setb 5 2 0x81) ∧
  decode 0x00000000000000000000 = .error .unassignedOpcode ∧
  decode 0x0D010000000000000000 = .error .reservedBits ∧
  decode 0x06020000000000020000 = .error .absentWithLength

/-- Every well-formed command, with every operand at every value, is read back from its own frame. -/
def Obligations.DecodeOfEncode : Prop :=
  ∀ i : Instr, WellFormed i → decode (encode i) = .ok i

/-- A frame that decodes is the frame of the command it decodes to, and of no other, and that command is well formed
(30_encoding R101, R102): no bit of a legal frame is dropped. -/
def Obligations.EncodeOfDecode : Prop :=
  ∀ (f : Frame) (i : Instr), decode f = .ok i → WellFormed i ∧ encode i = f ∧ ∀ j : Instr, encode j = f → j = i

/-- A frame is a command iff it matches a row of the opcode map under that row's mask and, for a string command, ABSENT = 1
implies LEN = 0; and it matches at most one row (30_encoding R90, R102). -/
def Obligations.LegalFramesAreTheTablesFrames : Prop :=
  ∀ f : Frame,
    ((∃ i, decode f = .ok i) ↔
      ∃ r ∈ encodingTable, f &&& r.mask = r.pattern ∧
        (r.counted = true → absentBit f = true → lowField f = 0)) ∧
    ∀ r ∈ encodingTable, ∀ r' ∈ encodingTable,
      f &&& r.mask = r.pattern → f &&& r'.mask = r'.pattern → r.opcode = r'.opcode

/-- OP values 0x00, 0x0F and 0x14 to 0xFF are unassigned and no others are (30_encoding R100). -/
def Obligations.UnassignedOpcodes : Prop :=
  ∀ f : Frame, decode f = .error .unassignedOpcode ↔
    (f.toNat / 2 ^ 72 = 0x00 ∨ f.toNat / 2 ^ 72 = 0x0F ∨ 0x14 ≤ f.toNat / 2 ^ 72)

/-- The number of payload bytes the frame alone announces is the number the command takes (30_encoding R103). -/
def Obligations.PayloadLengthFromTheFrame : Prop :=
  ∀ (f : Frame) (i : Instr), decode f = .ok i → commandBytes f = 10 + payloadLength i

/-! ### Steps -/

/-- When the frame at the head of CMD decodes to `i` and the block accepts frames, a step takes that frame off CMD, raises
BUSY and is `exec` of `i` (10_state R23, R30). -/
def Obligations.StepRunsTheDecodedCommand : Prop :=
  ∀ (s : State) (f : Frame) (rest : List Frame) (i : Instr),
    s.rst = .low → s.fault = false → s.busy = false → s.cmd = f :: rest → decode f = .ok i →
    step s = exec i { s with cmd := rest, busy := true }

/-- A frame that is no command raises IllegalCommand: FAULT becomes 1 and nothing else changes; no transaction, no STR byte
taken; the frame itself has been accepted (60 R262). -/
def Obligations.IllegalFrameRaisesFault : Prop :=
  ∀ (s : State) (f : Frame) (rest : List Frame) (e : DecodeError),
    s.rst = .low → s.fault = false → s.busy = false → s.cmd = f :: rest → decode f = .error e →
    step s = .next { s with cmd := rest, fault := true }

/-- While FAULT = 1 and no reset arrives there is no successor state (60 R264). -/
def Obligations.FaultStateIsTerminal : Prop :=
  ∀ s : State, s.rst = .low → s.fault = true → step s = .fault .halted

/-- A block that is idle, with no frame presented, holds all its state (60 R275). That the model takes a step there is log
entry 18. -/
def Obligations.IdleBlockHoldsItsState : Prop :=
  ∀ s : State, s.rst = .low → s.fault = false → s.busy = false → s.cmd = [] → step s = .next s

/-- The values the registers have after reset (70 R281). -/
def Obligations.ResetRegisterValues : Prop :=
  State.reset.curCol = 0 ∧ State.reset.curPage = 0 ∧ State.reset.measW = 0 ∧ State.reset.measH = 0 ∧
    State.reset.rdata = 0 ∧ State.reset.fault = false ∧ State.reset.busy = false

/-- Hardware reset from any state, the fault state included: the registers at their reset values, AUTO = AUTO_DEFAULT, the
framebuffer a fresh unspecified value at every index, an empty history; what was emitted before stands in `past` (60 R264, 70
R280 to R284). The two counters of free values and `past` are the model's (log entries 2, 14). -/
def Obligations.HardwareResetState : Prop :=
  ∀ s : State, s.rst = .high → ∃ fb : Memory,
    (∀ a, a < 1024 → fb.read a = Config.fbReset (s.resets + 1) a) ∧
    step s = .next
      { s with
        fb := fb, curCol := 0, curPage := 0, auto := s.params.autoDefault, measW := 0, measH := 0, rdata := 0,
        fault := false, busy := false, history := [], past := s.past ++ s.history, rst := .low,
        resets := s.resets + 1 }

/-- A reset that arrives when the next command would be accepted, or is in progress: the block is in the reset state, whatever it
was doing (70 R280, R281, R284). With FAULT = 1, BUSY = 1 or no frame there is no command to abandon, and nothing is taken or
sent. An illegal frame has been accepted, and nothing else is taken or sent. A command has been accepted, at most its own payload
bytes have been taken, and what was sent is its transactions up to some point, the last DATA possibly cut short: those of the
whole command if its payload is there, also if the transport stalls (R293); those of the PUTCHARs of the payload bytes there
for a PRINTSTR that waits for the rest (R291 b); none for another string command that waits. Where the cut lies is a free value
(log entry 14); how far a waiting command has come is log entry 10. -/
def Obligations.ResetInsideACommand : Prop :=
  ∀ s : State, s.rst = .inCommand →
    ∃ (fb : Memory) (cmd : List Frame) (str : List Byte) (sent : List Transaction),
      step s = .next
        { s with
          fb := fb, curCol := 0, curPage := 0, auto := s.params.autoDefault, measW := 0, measH := 0, rdata := 0,
          fault := false, busy := false, cmd := cmd, str := str, history := [],
          past := s.past ++ s.history ++ sent, rst := .low, resets := s.resets + 1 } ∧
      (∀ a, a < 1024 → fb.read a = Config.fbReset (s.resets + 1) a) ∧
      (s.fault = true ∨ s.busy = true ∨ s.cmd = [] → cmd = s.cmd ∧ str = s.str ∧ sent = []) ∧
      (∀ f rest, s.fault = false → s.busy = false → s.cmd = f :: rest →
        cmd = rest ∧
        (∀ e, decode f = .error e → str = s.str ∧ sent = []) ∧
        ∀ i, decode f = .ok i →
          ∃ (n k j : Nat) (ts : List Transaction),
            n ≤ payloadLength i ∧ str = s.str.drop n ∧ sent = cutShort ts k j ∧
            (payloadLength i ≤ s.str.length →
              ∃ u, exec i { s with cmd := rest, busy := true, stalled := false } = .next u ∧
                u.history = s.history ++ ts) ∧
            (s.str.length < payloadLength i →
              (∀ inv absent len, i = .printstr inv absent len →
                ∃ u, execAll (s.str.map fun ch => .putchar inv ch)
                    { s with cmd := rest, busy := true, stalled := false } = .next u ∧
                  u.history = s.history ++ ts) ∧
              ((∀ inv absent len, i ≠ .printstr inv absent len) → ts = [])))

/-! ### All commands at once -/

/-- No operand value raises anything: every command completes when its payload has been supplied and the transport
accepts (60 R261, 70 R294). -/
def Obligations.EveryCommandCompletes : Prop :=
  ∀ (i : Instr) (s : State), s.stalled = false → payloadLength i ≤ s.str.length →
    ∃ t, exec i s = .next t

/-- A string command whose payload is short waits for ever: there is no successor state (70 R291 item b, 93 U15). -/
def Obligations.ShortPayloadIsStuck : Prop :=
  ∀ (i : Instr) (s : State), s.str.length < payloadLength i → exec i s = .fault .payloadShort

/-- While the transport does not accept, a command that would emit a transaction has no successor state, and one that emits none
is not affected (70 R293). -/
def Obligations.StalledTransportIsStuck : Prop :=
  ∀ (i : Instr) (s t : State), s.stalled = true → exec i { s with stalled := false } = .next t →
    exec i s =
      if t.history = s.history then .next { t with stalled := true } else .fault .transportStalled

/-- No command writes FAULT, the parameters, CMD or the reset input; it takes exactly its payload from STR, leaves BUSY low, and
only appends to the history (10_state R29, R36; 20_memory R71; 30_encoding R83). -/
def Obligations.CommandsKeepTheControlState : Prop :=
  ∀ (i : Instr) (s t : State), exec i s = .next t →
    t.fault = s.fault ∧ t.busy = false ∧ t.params = s.params ∧ t.cmd = s.cmd ∧ t.past = s.past ∧
    t.rst = s.rst ∧ t.stalled = s.stalled ∧ t.resets = s.resets ∧
    t.str = s.str.drop (payloadLength i) ∧ ∃ ts, t.history = s.history ++ ts

/-- The writers of each register (10_state R24 to R28, R36): AUTO by INIT and SETMODE only, CUR_COL by INIT, SETCURSOR, PUTCHAR
and PRINTSTR only, CUR_PAGE by INIT and SETCURSOR only, MEAS_W and MEAS_H by INIT and MEASURE only, RDATA by INIT and GETB
only. -/
def Obligations.RegisterWriters : Prop :=
  ∀ (i : Instr) (s t : State), exec i s = .next t → i ≠ .init →
    ((∀ b, i ≠ .setmode b) → t.auto = s.auto) ∧
    ((∀ c p, i ≠ .setcursor c p) → (∀ v c, i ≠ .putchar v c) → (∀ v a n, i ≠ .printstr v a n) →
      t.curCol = s.curCol) ∧
    ((∀ c p, i ≠ .setcursor c p) → t.curPage = s.curPage) ∧
    ((∀ a n, i ≠ .measure a n) → t.measW = s.measW ∧ t.measH = s.measH) ∧
    ((∀ c p, i ≠ .getb c p) → t.rdata = s.rdata)

/-- SETCURSOR, MEASURE, FLUSHALL, FLUSHREGION, SETMODE and GETB leave every byte of the framebuffer as it was (10_state
R36). -/
def Obligations.CommandsThatNeverWriteTheFramebuffer : Prop :=
  ∀ (s t : State),
    (∀ c p, exec (.setcursor c p) s = .next t → ∀ a, t.fb.read a = s.fb.read a) ∧
    (∀ b n, exec (.measure b n) s = .next t → ∀ a, t.fb.read a = s.fb.read a) ∧
    (exec .flushall s = .next t → ∀ a, t.fb.read a = s.fb.read a) ∧
    (∀ c0 p0 c1 p1, exec (.flushregion c0 p0 c1 p1) s = .next t → ∀ a, t.fb.read a = s.fb.read a) ∧
    (∀ b, exec (.setmode b) s = .next t → ∀ a, t.fb.read a = s.fb.read a) ∧
    (∀ c p, exec (.getb c p) s = .next t → ∀ a, t.fb.read a = s.fb.read a)

/-- A normal drawing command can only set pixels and an inverted one can only clear them (20_memory R59). -/
def Obligations.DrawingOnlySetsOrOnlyClears : Prop :=
  ∀ (i : Instr) (s t : State), draws i = true → s.fb.wf = true → exec i s = .next t →
    ∀ x y : Int, 0 ≤ x ∧ x < 128 → 0 ≤ y ∧ y < 64 →
      pixel t.fb x y = pixel s.fb x y ∨ pixel t.fb x y = !inverted i

/-- In deferred mode a drawing command emits nothing (10_state R26, 44 R231). -/
def Obligations.DeferredDrawingEmitsNothing : Prop :=
  ∀ (i : Instr) (s t : State), draws i = true → s.auto = false → exec i s = .next t →
    t.history = s.history

/-- INIT, SETCURSOR, CLEAR, MEASURE, SETMODE, GETB, SETB, ORB and ANDNB emit nothing in either mode (10_state R36, 40 R120, 45
R250, R251). -/
def Obligations.QuietCommandsEmitNothing : Prop :=
  ∀ (i : Instr) (s t : State), draws i = false → i ≠ .clearflush → i ≠ .flushall →
    (∀ c0 p0 c1 p1, i ≠ .flushregion c0 p0 c1 p1) → exec i s = .next t → t.history = s.history

/-! ### Invariants -/

/-- The invariant holds at reset: the framebuffer, unspecified as it is, is canonical, there are 480 font bytes and
LOWER_SUPPRESS_FROM is 7 or 8, the empty history is made of pairs, and BUSY is 0. -/
def Obligations.InvariantHoldsAtReset : Prop := Invariant State.reset

/-- Every step keeps the invariant, from every state that has it: the framebuffer stays canonical with bytes at indices 0 to
1023 only (20_memory R51, R54), the parameters stay what they are (10_state R21), the history stays made of ADDR / DATA
pairs of one page within the buffer, of 1 to 128 bytes each (20_memory R65, R66), and BUSY stays 0 between two steps
(10_state R30; one command is one step: log entry 8). -/
def Obligations.StepKeepsInvariant : Prop :=
  ∀ s t : State, Invariant s → step s = .next t → Invariant t ∧ t.params = s.params

/-! ### The store (20_memory, 40_store) -/

/-- FbSet, FbOr and FbAndNot write the one cell they name if it is in range and nothing otherwise (20_memory R56, R57,
R58). -/
def Obligations.StorePrimitivesWriteOneCell : Prop :=
  ∀ (fb : Memory) (c p : Int) (v : Byte) (a : Nat), fb.wf = true →
    (fbSet fb c p v).read a =
      (if (0 ≤ c ∧ c < 128 ∧ 0 ≤ p ∧ p < 8) ∧ (a : Int) = p * 128 + c then v else fb.read a) ∧
    (fbOr fb c p v).read a =
      (if (0 ≤ c ∧ c < 128 ∧ 0 ≤ p ∧ p < 8) ∧ (a : Int) = p * 128 + c then fb.read a ||| v else fb.read a) ∧
    (fbAndNot fb c p v).read a =
      (if (0 ≤ c ∧ c < 128 ∧ 0 ≤ p ∧ p < 8) ∧ (a : Int) = p * 128 + c then fb.read a &&& ~~~v else fb.read a)

/-- FbGet gives the byte of an in-range cell and 0x00 out of range (20_memory R55). -/
def Obligations.FbGetIsBoundsChecked : Prop :=
  ∀ (fb : Memory) (c p : Int),
    fbGet fb c p = if 0 ≤ c ∧ c < 128 ∧ 0 ≤ p ∧ p < 8 then fb.read (p * 128 + c).toNat else 0

/-- The laws of FbOr and FbAndNot on the same cell: two with the same inv are one with the masks joined, in either order; and
FbAndNot after FbOr of the same mask restores a byte whose mask bits were clear (20_memory R61). -/
def Obligations.StorePrimitiveLaws : Prop :=
  ∀ (fb : Memory) (c p : Int) (m n : Byte) (inv : Bool), fb.wf = true →
    apply (apply fb c p m inv) c p n inv = apply fb c p (m ||| n) inv ∧
    apply (apply fb c p m inv) c p n inv = apply (apply fb c p n inv) c p m inv ∧
    (fbGet fb c p &&& m = 0 → fbAndNot (fbOr fb c p m) c p m = fb)

/-- CLEAR, frame 03000000000000000000, makes every byte 0x00 and changes nothing else, in either mode (40 R121, 20_memory
R60). -/
def Obligations.ClearZeroesTheFramebuffer : Prop :=
  decode 0x03000000000000000000 = .ok .clear ∧
    ∀ s : State, ∃ fb : Memory, exec .clear s = .next { s with fb := fb, busy := false } ∧ ∀ a, fb.read a = 0

/-- GETB puts the byte of an in-range cell in RDATA and does nothing out of range (40 R122). -/
def Obligations.GetbReadsOneByte : Prop :=
  ∀ (s : State) (col page : Half),
    ((0 ≤ col.toInt ∧ col.toInt < 128 ∧ 0 ≤ page.toInt ∧ page.toInt < 8) →
      exec (.getb col page) s =
        .next { s with rdata := s.fb.read (page.toInt * 128 + col.toInt).toNat, busy := false }) ∧
    (¬(0 ≤ col.toInt ∧ col.toInt < 128 ∧ 0 ≤ page.toInt ∧ page.toInt < 8) →
      exec (.getb col page) s = .next { s with busy := false })

/-- SETB stores v in an in-range cell, does nothing out of range, and leaves every other byte and register (40 R123). -/
def Obligations.SetbWritesOneByte : Prop :=
  ∀ (s : State) (col page : Half) (v : Byte), s.fb.wf = true →
    ∃ fb : Memory, exec (.setb col page v) s = .next { s with fb := fb, busy := false } ∧
      ∀ a : Nat, fb.read a =
        if (0 ≤ col.toInt ∧ col.toInt < 128 ∧ 0 ≤ page.toInt ∧ page.toInt < 8) ∧
            (a : Int) = page.toInt * 128 + col.toInt then v
        else s.fb.read a

/-- ORB sets the bits of m in an in-range cell, does nothing out of range, and leaves every other byte and register (40
R124). -/
def Obligations.OrbSetsBitsOfOneByte : Prop :=
  ∀ (s : State) (col page : Half) (m : Byte), s.fb.wf = true →
    ∃ fb : Memory, exec (.orb col page m) s = .next { s with fb := fb, busy := false } ∧
      ∀ a : Nat, fb.read a =
        if (0 ≤ col.toInt ∧ col.toInt < 128 ∧ 0 ≤ page.toInt ∧ page.toInt < 8) ∧
            (a : Int) = page.toInt * 128 + col.toInt then s.fb.read a ||| m
        else s.fb.read a

/-- ANDNB clears the bits of m in an in-range cell, does nothing out of range, and leaves every other byte and register (40
R125). -/
def Obligations.AndnbClearsBitsOfOneByte : Prop :=
  ∀ (s : State) (col page : Half) (m : Byte), s.fb.wf = true →
    ∃ fb : Memory, exec (.andnb col page m) s = .next { s with fb := fb, busy := false } ∧
      ∀ a : Nat, fb.read a =
        if (0 ≤ col.toInt ∧ col.toInt < 128 ∧ 0 ≤ page.toInt ∧ page.toInt < 8) ∧
            (a : Int) = page.toInt * 128 + col.toInt then s.fb.read a &&& ~~~m
        else s.fb.read a

/-! ### Text at the cursor (41_text_cursor) -/

/-- SETCURSOR stores both operands unchanged, whatever they are, and changes nothing else (41 R140). -/
def Obligations.SetcursorStoresItsOperands : Prop :=
  ∀ (s : State) (col page : Half),
    exec (.setcursor col page) s = .next { s with curCol := col, curPage := page, busy := false }

/-- PUTCHAR: byte i of the glyph, which is the byte of the font port at address (ch - 0x20)*5 + i if ch is printable and at address
i, the space's, if it is not, is set in, or cleared from, the cell (CUR_COL + i, CUR_PAGE) for the i in 0 to 4 for which that cell
exists; every other byte is as before; CUR_COL advances by 6, wrapped to 16 bits; no other register changes (41 R141 to R143,
20_memory R62 to R64). -/
def Obligations.PutcharDrawsAtTheCursor : Prop :=
  ∀ (s : State) (inv : Bool) (ch : Byte), s.stalled = false → s.fb.wf = true →
    ∃ (fb : Memory) (h : List Transaction),
      exec (.putchar inv ch) s =
        .next { s with fb := fb, history := h, curCol := BitVec.ofInt 16 (s.curCol.toInt + 6), busy := false } ∧
      (∀ (i a : Nat) (g : Byte), i < 5 →
        s.params.font[if 0x20 ≤ ch.toNat ∧ ch.toNat ≤ 0x7F then (ch.toNat - 0x20) * 5 + i else i]? = some g →
        0 ≤ s.curCol.toInt + i → s.curCol.toInt + i < 128 → 0 ≤ s.curPage.toInt → s.curPage.toInt < 8 →
        (a : Int) = s.curPage.toInt * 128 + (s.curCol.toInt + i) →
        fb.read a = if inv then s.fb.read a &&& ~~~g else s.fb.read a ||| g) ∧
      (∀ a : Nat,
        (∀ i : Nat, i < 5 →
          ¬(0 ≤ s.curCol.toInt + i ∧ s.curCol.toInt + i < 128 ∧ 0 ≤ s.curPage.toInt ∧ s.curPage.toInt < 8 ∧
            (a : Int) = s.curPage.toInt * 128 + (s.curCol.toInt + i))) →
        fb.read a = s.fb.read a)

/-- The transactions of PUTCHAR: in auto mode, one ADDR and one DATA of the glyph's columns that exist, as they are after the
writes; none if that span is empty or the page does not exist, or in deferred mode (41 R144). -/
def Obligations.PutcharFlushesItsSpan : Prop :=
  ∀ (s t : State) (inv : Bool) (ch : Byte), exec (.putchar inv ch) s = .next t →
    t.history = s.history ++
      if s.auto = true ∧ 0 ≤ s.curPage.toInt ∧ s.curPage.toInt < 8 ∧ s.curCol.toInt < 128 ∧ -5 < s.curCol.toInt then
        [.addr (max s.curCol.toInt 0).toNat s.curPage.toInt.toNat,
          .data ((span (max s.curCol.toInt 0) (min (s.curCol.toInt + 4) 127)).map fun c =>
            t.fb.read (s.curPage.toInt * 128 + c).toNat)]
      else []

/-- The cursor's advance as an integer: 6 more, and 65536 less where that passes 32767 (41 R143). -/
def Obligations.CursorAdvancesBySix : Prop :=
  ∀ (s t : State) (inv : Bool) (ch : Byte), exec (.putchar inv ch) s = .next t →
    t.curCol.toInt =
      if s.curCol.toInt + 6 ≤ 32767 then s.curCol.toInt + 6 else s.curCol.toInt + 6 - 65536

/-- PRINTSTR completes, and is the PUTCHARs of its payload, one after the other, transactions and cursor included; it takes its
payload from STR and nothing more (41 R150). -/
def Obligations.PrintstrIsPutcharPerCharacter : Prop :=
  ∀ (s : State) (inv : Bool) (len : Byte) (bytes rest : List Byte),
    s.stalled = false → s.str = bytes ++ rest → bytes.length = len.toNat →
    ∃ t, exec (.printstr inv false len) s = .next t ∧
      execAll (bytes.map fun ch => .putchar inv ch) { s with str := rest, busy := false } = .next t ∧
      t.curPage = s.curPage ∧ t.curCol = BitVec.ofInt 16 (s.curCol.toInt + 6 * bytes.length)

/-- A string command whose string is absent changes nothing and emits nothing (41 R150, 42 R180, R190). -/
def Obligations.AbsentStringIsANoOp : Prop :=
  ∀ (s : State) (inv : Bool) (len : Byte) (x y : Half),
    exec (.printstr inv true len) s = .next { s with busy := false } ∧
    exec (.printstrxy inv true len x y) s = .next { s with busy := false } ∧
    exec (.measure true len) s = .next { s with busy := false }

/-! ### Text at a pixel position (42_text_xy) -/

/-- PUTCHARXY at any position, for any character: it completes, changes the framebuffer and the history only, and the pixels it
sets, or clears if inverted, are exactly the glyph's pixels on the screen, less the suppressed rows: pixel (x + i, y + r) for
bit r of the byte of the font port at address (ch - 0x20)*5 + i, for a printable ch (42 R160 to R167, R169; 20_memory R62 to
R64). -/
def Obligations.PutcharxyPixels : Prop :=
  ∀ (s : State) (inv : Bool) (ch : Byte) (x y : Half), s.stalled = false → s.fb.wf = true →
    ∃ (fb : Memory) (h : List Transaction),
      exec (.putcharxy inv ch x y) s = .next { s with fb := fb, history := h, busy := false } ∧
      (∀ px py : Int, 0 ≤ px ∧ px < 128 → 0 ≤ py ∧ py < 64 →
        (glyphPixel s.params ch x.toInt y.toInt px py → pixel fb px py = !inv) ∧
        (¬glyphPixel s.params ch x.toInt y.toInt px py → pixel fb px py = pixel s.fb px py))

/-- An invalid character or an off-canvas position makes PUTCHARXY a no-op, without a transaction in either mode (42 R161,
R162). -/
def Obligations.PutcharxyNoOps : Prop :=
  ∀ (s : State) (inv : Bool) (ch : Byte) (x y : Half),
    (ch.toNat < 0x20 ∨ 0x7F < ch.toNat ∨ x.toInt ≤ -5 ∨ 133 ≤ x.toInt ∨ y.toInt ≤ -8 ∨ 72 ≤ y.toInt) →
    exec (.putcharxy inv ch x y) s = .next { s with busy := false }

/-- The transactions of PUTCHARXY: in auto mode, for a valid character at a position from which a column and a row reach the
screen, the pages y div 8, and the next one if y is not page-aligned, that exist, upper page first, each with the glyph's columns
that exist, as they are after the writes; both pages also when a write was suppressed; otherwise none (42 R168). -/
def Obligations.PutcharxyFlushesItsPages : Prop :=
  ∀ (s t : State) (inv : Bool) (ch : Byte) (x y : Half), exec (.putcharxy inv ch x y) s = .next t →
    t.history = s.history ++
      if s.auto = true ∧ 0x20 ≤ ch.toNat ∧ ch.toNat ≤ 0x7F ∧ -5 < x.toInt ∧ x.toInt < 128 ∧ -8 < y.toInt ∧ y.toInt < 64 then
        ((if y.toInt % 8 = 0 then [y.toInt / 8] else [y.toInt / 8, y.toInt / 8 + 1]).filter
          fun p => decide (0 ≤ p ∧ p ≤ 7)).flatMap fun p =>
            [.addr (max x.toInt 0).toNat p.toNat,
              .data ((span (max x.toInt 0) (min (x.toInt + 4) 127)).map fun c => t.fb.read (p * 128 + c).toNat)]
      else []

/-- A rejected PRINTSTRXY, its string wholly to the left of column 0 by its measured width, or starting right of column 127, or
its initial y off-canvas, changes nothing but STR, from which it takes the whole payload (42 R180, R181; 30_encoding
R83). -/
def Obligations.PrintstrxyRejection : Prop :=
  ∀ (s : State) (inv : Bool) (len : Byte) (x y : Half) (bytes rest : List Byte),
    s.str = bytes ++ rest → bytes.length = len.toNat →
    (x.toInt + (measureString bytes).1 ≤ 0 ∨ 128 ≤ x.toInt ∨ y.toInt ≤ -8 ∨ 72 ≤ y.toInt) →
    exec (.printstrxy inv false len x y) s = .next { s with str := rest, busy := false }

/-- An accepted PRINTSTRXY completes, and is the PUTCHARXYs of the cells its walk visits, in string order, transactions
included; it takes the whole payload from STR, also when the walk ends early (42 R180, R182, R183; 30_encoding R83). -/
def Obligations.PrintstrxyIsPutcharxyPerCell : Prop :=
  ∀ (s : State) (inv : Bool) (len : Byte) (x y : Half) (bytes rest : List Byte),
    s.stalled = false → s.str = bytes ++ rest → bytes.length = len.toNat →
    ¬(x.toInt + (measureString bytes).1 ≤ 0 ∨ 128 ≤ x.toInt ∨ y.toInt ≤ -8 ∨ 72 ≤ y.toInt) →
    ∃ t, exec (.printstrxy inv false len x y) s = .next t ∧
      execAll ((walkCells x.toInt bytes x.toInt y.toInt).map fun cell =>
        .putcharxy inv cell.1 (BitVec.ofInt 16 cell.2.1) (BitVec.ofInt 16 cell.2.2))
        { s with str := rest, busy := false } = .next t

/-- MEASURE: the width is 6 for each byte but 0x0D of the widest line, the height 8 for each line, every 0x0A opening one; the
result goes to MEAS_W and MEAS_H and nothing else changes but STR (42 R190, R191). -/
def Obligations.MeasureGivesTheBox : Prop :=
  ∀ (s : State) (len : Byte) (bytes rest : List Byte), s.str = bytes ++ rest → bytes.length = len.toNat →
    exec (.measure false len) s =
      .next
        { s with
          str := rest
          measW := BitVec.ofNat 16
            (((bytes.splitOn 0x0A).map fun line => 6 * (line.filter fun b => b != 0x0D).length).foldr max 0)
          measH := BitVec.ofNat 16 (8 * (bytes.splitOn 0x0A).length)
          busy := false }

/-- The function Measure: the width is 6 for each byte but 0x0D of the widest line, lines ending at 0x0A; the height is 8 for the
first line and 8 more for each 0x0A. For at most 255 bytes, 0 ≤ w ≤ 1530 and 8 ≤ h ≤ 2048, w a multiple of 6 and h of 8
(42 R191). -/
def Obligations.MeasureFunction : Prop :=
  ∀ bytes : List Byte,
    measureString bytes =
      (((bytes.splitOn 0x0A).map fun line => 6 * (line.filter fun b => b != 0x0D).length).foldr max 0,
        8 * (1 + bytes.count 0x0A)) ∧
    (bytes.length ≤ 255 →
      (measureString bytes).1 ≤ 1530 ∧ 8 ≤ (measureString bytes).2 ∧ (measureString bytes).2 ≤ 2048 ∧
      (measureString bytes).1 % 6 = 0 ∧ (measureString bytes).2 % 8 = 0)

/-! ### Rectangles (43_rect) -/

/-- FILLRECT with corners in any order and anywhere: it completes, changes the framebuffer and the history only, and sets, or
clears if inverted, exactly the pixels of the rectangle that are on the screen; none if it is fully outside (43 R200 to R203,
R220, R221). -/
def Obligations.FillrectPixels : Prop :=
  ∀ (s : State) (inv : Bool) (x0 y0 x1 y1 : Half), s.stalled = false → s.fb.wf = true →
    ∃ (fb : Memory) (h : List Transaction),
      exec (.fillrect inv x0 y0 x1 y1) s = .next { s with fb := fb, history := h, busy := false } ∧
      ∀ x y : Int, 0 ≤ x ∧ x < 128 → 0 ≤ y ∧ y < 64 →
        pixel fb x y =
          if min x0.toInt x1.toInt ≤ x ∧ x ≤ max x0.toInt x1.toInt ∧
              min y0.toInt y1.toInt ≤ y ∧ y ≤ max y0.toInt y1.toInt then !inv
          else pixel s.fb x y

/-- DRAWRECT with corners in any order and anywhere: it completes, changes the framebuffer and the history only, and sets, or
clears if inverted, exactly the pixels of the rectangle's one-pixel border that are on the screen; an edge off the screen is
omitted, not moved (43 R200 to R205, R210, R215 to R218, R222). -/
def Obligations.DrawrectPixels : Prop :=
  ∀ (s : State) (inv : Bool) (x0 y0 x1 y1 : Half), s.stalled = false → s.fb.wf = true →
    ∃ (fb : Memory) (h : List Transaction),
      exec (.drawrect inv x0 y0 x1 y1) s = .next { s with fb := fb, history := h, busy := false } ∧
      ∀ x y : Int, 0 ≤ x ∧ x < 128 → 0 ≤ y ∧ y < 64 →
        pixel fb x y =
          if (min x0.toInt x1.toInt ≤ x ∧ x ≤ max x0.toInt x1.toInt ∧
                min y0.toInt y1.toInt ≤ y ∧ y ≤ max y0.toInt y1.toInt) ∧
              (x = x0.toInt ∨ x = x1.toInt ∨ y = y0.toInt ∨ y = y1.toInt) then !inv
          else pixel s.fb x y

/-- The transactions of both rectangle commands: in auto mode, unless the rectangle is fully outside, one pair for each page it
meets, top page first, each with the visible columns of its bounding span as they are after all writes (43 R202, R223). -/
def Obligations.RectanglesFlushTheirSpan : Prop :=
  ∀ (s t : State) (inv : Bool) (x0 y0 x1 y1 : Half),
    exec (.fillrect inv x0 y0 x1 y1) s = .next t ∨ exec (.drawrect inv x0 y0 x1 y1) s = .next t →
    t.history = s.history ++
      if s.auto = true ∧ 0 ≤ max x0.toInt x1.toInt ∧ min x0.toInt x1.toInt < 128 ∧
          0 ≤ max y0.toInt y1.toInt ∧ min y0.toInt y1.toInt < 64 then
        (span (max (min y0.toInt y1.toInt) 0 / 8) (min (max y0.toInt y1.toInt) 63 / 8)).flatMap fun p =>
          [.addr (max (min x0.toInt x1.toInt) 0).toNat p.toNat,
            .data ((span (max (min x0.toInt x1.toInt) 0) (min (max x0.toInt x1.toInt) 127)).map fun c =>
              t.fb.read (p * 128 + c).toNat)]
      else []

/-- Filling the same rectangle twice leaves the framebuffer of filling it once (43 R221). -/
def Obligations.FillrectIsIdempotent : Prop :=
  ∀ (s t u : State) (inv : Bool) (x0 y0 x1 y1 : Half), s.fb.wf = true →
    exec (.fillrect inv x0 y0 x1 y1) s = .next t → exec (.fillrect inv x0 y0 x1 y1) t = .next u → u.fb = t.fb

/-- On a clear framebuffer, drawing or filling a rectangle and then doing the same inverted restores the clear framebuffer (43
R221, R222). -/
def Obligations.InvertedRectangleUndoes : Prop :=
  ∀ (s t u : State) (x0 y0 x1 y1 : Half), s.fb = Memory.clear →
    ((exec (.fillrect false x0 y0 x1 y1) s = .next t ∧ exec (.fillrect true x0 y0 x1 y1) t = .next u) ∨
      (exec (.drawrect false x0 y0 x1 y1) s = .next t ∧ exec (.drawrect true x0 y0 x1 y1) t = .next u)) →
    u.fb = Memory.clear

/-! ### The dispatcher (44_flush) -/

/-- FLUSHALL emits, for each page from 0 to 7, ADDR(0, p) and the page's 128 bytes, in both modes, and changes nothing else; the
data bytes are the framebuffer in index order (44 R232, R236). -/
def Obligations.FlushallSendsTheFramebuffer : Prop :=
  ∀ s : State, s.stalled = false → ∃ h : List Transaction,
    exec .flushall s = .next { s with history := s.history ++ h, busy := false } ∧
    h = (List.range 8).flatMap (fun p =>
      [.addr 0 p, .data ((List.range 128).map fun c => s.fb.read (128 * p + c))]) ∧
    dataBytes h = (List.range 1024).map fun k => s.fb.read k

/-- FLUSHREGION clamps each bound on its own side, does not swap them, and emits nothing if the clamped region is empty; else one
ADDR and one DATA for each page in ascending order, the bytes in ascending column order; in both modes, and nothing else
changes (44 R230, R233). -/
def Obligations.FlushregionSendsTheClampedRegion : Prop :=
  ∀ (s : State) (c0 p0 c1 p1 : Half), s.stalled = false → ∃ h : List Transaction,
    exec (.flushregion c0 p0 c1 p1) s = .next { s with history := s.history ++ h, busy := false } ∧
    (max c0.toInt 0 > min c1.toInt 127 ∨ max p0.toInt 0 > min p1.toInt 7 → h = []) ∧
    (max c0.toInt 0 ≤ min c1.toInt 127 → max p0.toInt 0 ≤ min p1.toInt 7 →
      (h.length : Int) = 2 * (min p1.toInt 7 - max p0.toInt 0 + 1) ∧
      ∀ k : Nat, max p0.toInt 0 + k ≤ min p1.toInt 7 →
        h[2 * k]? = some (.addr (max c0.toInt 0).toNat (max p0.toInt 0 + k).toNat) ∧
        ∃ bytes : List Byte, h[2 * k + 1]? = some (.data bytes) ∧
          (bytes.length : Int) = min c1.toInt 127 - max c0.toInt 0 + 1 ∧
          ∀ j : Nat, j < bytes.length →
            bytes[j]? = some (s.fb.read ((max p0.toInt 0 + k) * 128 + max c0.toInt 0 + j).toNat))

/-- After a FLUSHREGION the display has been sent the framebuffer's own byte for every cell of the region that exists, and nothing
for any other cell (20_memory R72, 44 R230, R233): what a display that was sent everything shows on the region is the
framebuffer. -/
def Obligations.FlushregionMirrorsTheRegion : Prop :=
  ∀ (s : State) (c0 p0 c1 p1 : Half), s.stalled = false → ∃ h : List Transaction,
    exec (.flushregion c0 p0 c1 p1) s = .next { s with history := s.history ++ h, busy := false } ∧
    ∀ c p : Nat, c < 128 → p < 8 →
      lastSent h c p =
        if c0.toInt ≤ c ∧ c ≤ c1.toInt ∧ p0.toInt ≤ p ∧ p ≤ p1.toInt then some (s.fb.read (p * 128 + c)) else none

/-- CLEARFLUSH makes every byte 0x00 and emits the full flush of the clear framebuffer, in both modes; the registers do not change
(44 R234). -/
def Obligations.ClearflushClearsAndSends : Prop :=
  ∀ s : State, s.stalled = false → ∃ (fb : Memory) (h : List Transaction),
    exec .clearflush s = .next { s with fb := fb, history := s.history ++ h, busy := false } ∧
    (∀ a, fb.read a = 0) ∧
    h = (List.range 8).flatMap fun p => [.addr 0 p, .data (List.replicate 128 0)]

/-- The two identities of 30_encoding R106: FLUSHALL is FLUSHREGION 0, 0, 127, 7, and CLEARFLUSH is CLEAR followed by
FLUSHALL. -/
def Obligations.FlushIdentities : Prop :=
  ∀ s : State, exec .flushall s = exec (.flushregion 0 0 127 7) s ∧
    exec .clearflush s = execAll [.clear, .flushall] s

/-! ### Control and status -/

/-- INIT clears the framebuffer, homes the cursor, sets AUTO to AUTO_DEFAULT and the result registers to 0, and emits nothing;
FAULT is not written (45 R250). -/
def Obligations.InitState : Prop :=
  ∀ s : State, ∃ fb : Memory,
    exec .init s =
      .next
        { s with
          fb := fb, curCol := 0, curPage := 0, auto := s.params.autoDefault, measW := 0, measH := 0, rdata := 0,
          busy := false } ∧
    ∀ a, fb.read a = 0

/-- SETMODE sets AUTO to AUTOBIT, without flipping it and without a flush, and changes nothing else (45 R251). -/
def Obligations.SetmodeSetsAuto : Prop :=
  ∀ (s : State) (auto : Bool), exec (.setmode auto) s = .next { s with auto := auto, busy := false }

/-- The status wires show the registers while BUSY = 0, and BUSY and FAULT at any time (10_state R31). -/
def Obligations.StatusWires : Prop :=
  ∀ s : State, s.status.fault = s.fault ∧ s.status.busy = s.busy ∧
    (s.busy = false →
      s.status = { curCol := s.curCol, curPage := s.curPage, auto := s.auto, measW := s.measW, measH := s.measH,
                   rdata := s.rdata, fault := s.fault, busy := false })

/-! ### Runs -/

/-- A list of commands, whatever it is, whose frames are well formed and whose payloads are exact, presented at a block that
accepts and whose channels are empty, runs to its normal end in as many steps as there are commands, if the transport accepts;
and the state it ends in is that of the commands executed in order (30_encoding R110, 70 R295). -/
def Obligations.PresentedCommandsRunInOrder : Prop :=
  ∀ (cs : List Command) (s : State), (∀ c ∈ cs, c.wf = true) → Accepting s → s.stalled = false → s.cmd = [] → s.str = [] →
    ∃ t, core.run cs.length (s.present cs) = .next t ∧ NormalEnd t ∧
      execAll (cs.map fun c => c.instr) { s with str := cs.flatMap fun c => c.payload } = .next t

/-- The end of a run by fault: the commands before an illegal frame run in order, then FAULT is 1, the result of the run is that of
those commands, the frames and payload bytes behind the illegal frame are never taken, and there is no further step
(70 R295, 60 R262, R264). -/
def Obligations.IllegalFrameEndsTheRun : Prop :=
  ∀ (cs : List Command) (s : State) (f : Frame) (more : List Frame) (rest : List Byte) (e : DecodeError),
    (∀ c ∈ cs, c.wf = true) → Accepting s → s.stalled = false →
    s.cmd = cs.map (fun c => encode c.instr) ++ f :: more → s.str = cs.flatMap (fun c => c.payload) ++ rest →
    decode f = .error e →
    ∃ t u, execAll (cs.map fun c => c.instr) s = .next u ∧ core.run (cs.length + 1) s = .next t ∧
      FaultEnd t ∧ runResult t = runResult u ∧ t.cmd = more ∧ t.str = rest ∧ step t = .fault .halted
end

