-- ==== Sys2Proof/Laws/Memory.lean ====
section
/-! SUPPORT. The laws of the framebuffer's canonical form: reads, writes, extensionality. -/

namespace Sys2Proof.Machine

@[simp] theorem Memory.read_nil (a : Nat) : Memory.read [] a = 0 := rfl

@[simp] theorem Memory.read_clear (a : Nat) : Memory.read Memory.clear a = 0 := rfl

@[simp] theorem Memory.wf_clear : Memory.wf Memory.clear = true := rfl

theorem Memory.wfFrom_cons {lo b : Nat} {v : Byte} {m : Memory} :
    Memory.wfFrom lo ((b, v) :: m) = true ↔
      lo ≤ b ∧ b < 1024 ∧ v ≠ 0 ∧ Memory.wfFrom (b + 1) m = true := by
  simp [Memory.wfFrom, unlistedByte, and_assoc]

theorem Memory.wfFrom_mono {lo lo' : Nat} {m : Memory} (h : lo' ≤ lo) (hm : m.wfFrom lo = true) :
    m.wfFrom lo' = true := by
  cases m with
  | nil => rfl
  | cons c m =>
    obtain ⟨b, v⟩ := c
    rw [Memory.wfFrom_cons] at hm ⊢
    exact ⟨by omega, hm.2⟩

/-- A canonical list that starts at `lo` reads 0 below it. -/
theorem Memory.read_of_lt {lo a : Nat} {m : Memory} (hm : m.wfFrom lo = true) (h : a < lo) :
    m.read a = 0 := by
  induction m generalizing lo with
  | nil => rfl
  | cons c m ih =>
    obtain ⟨b, v⟩ := c
    rw [Memory.wfFrom_cons] at hm
    have hne : b ≠ a := by omega
    simp only [Memory.read, hne, if_false]
    exact ih hm.2.2.2 (by omega)

/-- No cell exists at 1024 or above (20_memory R50). -/
theorem Memory.read_of_ge {lo a : Nat} {m : Memory} (hm : m.wfFrom lo = true) (h : 1024 ≤ a) :
    m.read a = 0 := by
  induction m generalizing lo with
  | nil => rfl
  | cons c m ih =>
    obtain ⟨b, v⟩ := c
    rw [Memory.wfFrom_cons] at hm
    have hne : b ≠ a := by omega
    simp only [Memory.read, hne, if_false]
    exact ih hm.2.2.2

theorem Memory.write_wfFrom {lo a : Nat} {v : Byte} {m : Memory} (hm : m.wfFrom lo = true)
    (hlo : lo ≤ a) (ha : a < 1024) : (m.write a v).wfFrom lo = true := by
  induction m generalizing lo with
  | nil =>
    rw [Memory.write]
    split_ifs with hv
    · rfl
    · exact Memory.wfFrom_cons.2 ⟨hlo, ha, hv, rfl⟩
  | cons c m ih =>
    obtain ⟨b, w⟩ := c
    rw [Memory.wfFrom_cons] at hm
    obtain ⟨h1, h2, h3, h4⟩ := hm
    rw [Memory.write]
    split_ifs with hlt heq hv hv
    · exact Memory.wfFrom_cons.2 ⟨h1, h2, h3, ih h4 (by omega)⟩
    · exact Memory.wfFrom_mono (by omega) h4
    · exact Memory.wfFrom_cons.2 ⟨hlo, ha, hv, heq ▸ h4⟩
    · exact Memory.wfFrom_cons.2 ⟨h1, h2, h3, h4⟩
    · exact Memory.wfFrom_cons.2 ⟨hlo, ha, hv, Memory.wfFrom_cons.2 ⟨by omega, h2, h3, h4⟩⟩

/-- Every write keeps the canonical form. -/
theorem Memory.write_wf {a : Nat} {v : Byte} {m : Memory} (hm : m.wf = true) (ha : a < 1024) :
    (m.write a v).wf = true :=
  Memory.write_wfFrom hm (Nat.zero_le a) ha

theorem Memory.read_cons (b : Nat) (v : Byte) (m : Memory) (a : Nat) :
    Memory.read ((b, v) :: m) a = if b = a then v else m.read a := rfl

theorem Memory.read_write_from {lo a : Nat} {v : Byte} {m : Memory} (hm : m.wfFrom lo = true) (a' : Nat) :
    (m.write a v).read a' = if a' = a then v else m.read a' := by
  induction m generalizing lo with
  | nil =>
    rw [Memory.write]
    split_ifs with hv ha ha
    · simpa [unlistedByte] using hv.symm
    · rfl
    · rw [Memory.read_cons, if_pos ha.symm]
    · rw [Memory.read_cons, if_neg (fun h => ha h.symm)]
  | cons c m ih =>
    obtain ⟨b, w⟩ := c
    rw [Memory.wfFrom_cons] at hm
    obtain ⟨h1, h2, h3, h4⟩ := hm
    rw [Memory.write]
    split_ifs with hlt ha heq hv ha ha hv ha ha
    · subst ha; rw [Memory.read_cons, if_neg (by omega), ih h4, if_pos rfl]
    · rw [Memory.read_cons, Memory.read_cons, ih h4, if_neg ha]
    · subst ha; subst heq; exact (Memory.read_of_lt h4 (Nat.lt_succ_self _)).trans hv.symm
    · rw [Memory.read_cons, if_neg (by omega)]
    · rw [Memory.read_cons, if_pos ha.symm]
    · rw [Memory.read_cons, Memory.read_cons, if_neg (by omega), if_neg (by omega)]
    · subst ha
      exact (Memory.read_of_lt (lo := b) (Memory.wfFrom_cons.2 ⟨le_refl b, h2, h3, h4⟩) (by omega)).trans hv.symm
    · rfl
    · rw [Memory.read_cons, if_pos ha.symm]
    · rw [Memory.read_cons a, if_neg (fun h => ha h.symm)]

/-- A read after a write: the byte written at its own index, every other byte as before. -/
theorem Memory.read_write {a : Nat} {v : Byte} {m : Memory} (hm : m.wf = true) (a' : Nat) :
    (m.write a v).read a' = if a' = a then v else m.read a' :=
  Memory.read_write_from hm a'

theorem Memory.ext_from {lo : Nat} {m n : Memory} (hm : m.wfFrom lo = true) (hn : n.wfFrom lo = true)
    (h : ∀ a, m.read a = n.read a) : m = n := by
  induction m generalizing lo n with
  | nil =>
    cases n with
    | nil => rfl
    | cons c n =>
      obtain ⟨b, v⟩ := c
      rw [Memory.wfFrom_cons] at hn
      have := h b
      simp [Memory.read] at this
      exact absurd this.symm hn.2.2.1
  | cons c m ih =>
    obtain ⟨b, v⟩ := c
    cases n with
    | nil =>
      rw [Memory.wfFrom_cons] at hm
      have := h b
      simp [Memory.read] at this
      exact absurd this hm.2.2.1
    | cons d n =>
      obtain ⟨b', v'⟩ := d
      rw [Memory.wfFrom_cons] at hm hn
      have hb : b = b' := by
        rcases Nat.lt_trichotomy b b' with hlt | heq | hgt
        · have h1 := h b
          have hne : b' ≠ b := by omega
          rw [Memory.read, if_pos rfl, Memory.read, if_neg hne,
            Memory.read_of_lt hn.2.2.2 (by omega)] at h1
          exact absurd h1 hm.2.2.1
        · exact heq
        · have h1 := h b'
          have hne : b ≠ b' := by omega
          rw [Memory.read, if_neg hne, Memory.read, if_pos rfl,
            Memory.read_of_lt hm.2.2.2 (by omega)] at h1
          exact absurd h1.symm hn.2.2.1
      subst hb
      have hv : v = v' := by
        have := h b
        simpa [Memory.read] using this
      subst hv
      have htail : m = n := by
        refine ih hm.2.2.2 hn.2.2.2 fun a => ?_
        by_cases ha : b = a
        · subst ha
          rw [Memory.read_of_lt hm.2.2.2 (Nat.lt_succ_self _), Memory.read_of_lt hn.2.2.2 (Nat.lt_succ_self _)]
        · have := h a
          simpa [Memory.read, ha] using this
      rw [htail]

/-- Equal framebuffers are equal data: two canonical lists with the same reads are the same list. -/
theorem Memory.ext_of_wf {m n : Memory} (hm : m.wf = true) (hn : n.wf = true)
    (h : ∀ a, m.read a = n.read a) : m = n :=
  Memory.ext_from hm hn h

/-! ### A framebuffer given byte by byte -/

/-- The cells of the indices k, k + 1, ..., k + n - 1. -/
theorem Memory.cells_wfFrom (f : Nat → Byte) (n k : Nat) (h : k + n ≤ 1024) :
    Memory.wfFrom k ((List.range' k n).filterMap fun a =>
      if f a = unlistedByte then none else some (a, f a)) = true := by
  induction n generalizing k with
  | zero => rfl
  | succ n ih =>
    have ih' := ih (k + 1) (by omega)
    rw [List.range'_succ, List.filterMap_cons]
    by_cases hk : f k = unlistedByte
    · simp only [hk, if_true]
      exact Memory.wfFrom_mono (Nat.le_succ k) ih'
    · simp only [hk, if_false]
      exact Memory.wfFrom_cons.2 ⟨le_refl k, by omega, hk, ih'⟩

theorem Memory.cells_read (f : Nat → Byte) (n k a : Nat) :
    Memory.read ((List.range' k n).filterMap fun a =>
      if f a = unlistedByte then none else some (a, f a)) a = if k ≤ a ∧ a < k + n then f a else 0 := by
  induction n generalizing k with
  | zero =>
    rw [if_neg (by omega)]
    rfl
  | succ n ih =>
    rw [List.range'_succ, List.filterMap_cons]
    by_cases hk : f k = unlistedByte
    · simp only [hk, if_true]
      rw [ih (k + 1)]
      split_ifs with h1 h2 h2
      · rfl
      · omega
      · have : a = k := by omega
        rw [this, hk]; rfl
      · rfl
    · simp only [hk, if_false]
      rw [Memory.read_cons, ih (k + 1)]
      split_ifs with h0 h1 h1 h2 h2
      · rw [h0]
      · omega
      · rfl
      · omega
      · omega
      · rfl

theorem Memory.ofBytes_eq (f : Nat → Byte) :
    Memory.ofBytes f =
      (List.range' 0 1024).filterMap fun a => if f a = unlistedByte then none else some (a, f a) := by
  rw [← List.range_eq_range']
  delta Memory.ofBytes
  with_reducible rfl

/-- A framebuffer given byte by byte is canonical. -/
theorem Memory.ofBytes_wf (f : Nat → Byte) : (Memory.ofBytes f).wf = true := by
  rw [Memory.wf, Memory.ofBytes_eq]
  exact Memory.cells_wfFrom f 1024 0 (le_refl _)

/-- A framebuffer given byte by byte reads so. -/
theorem Memory.read_ofBytes (f : Nat → Byte) (a : Nat) :
    (Memory.ofBytes f).read a = if a < 1024 then f a else 0 := by
  rw [Memory.ofBytes_eq, Memory.cells_read]
  simp

end Sys2Proof.Machine
end

