-- ==== Sys2Proof/Laws/State.lean ====
section
/-! SUPPORT. One lemma per field per update of the state, so that no proof unfolds a record update. -/

namespace Sys2Proof.Machine

variable (s : State)

/-! ### setFb -/

@[simp] theorem State.setFb_params (v : Memory) : (s.setFb v).params = s.params := rfl
@[simp] theorem State.setFb_fb (v : Memory) : (s.setFb v).fb = v := rfl
@[simp] theorem State.setFb_curCol (v : Memory) : (s.setFb v).curCol = s.curCol := rfl
@[simp] theorem State.setFb_curPage (v : Memory) : (s.setFb v).curPage = s.curPage := rfl
@[simp] theorem State.setFb_auto (v : Memory) : (s.setFb v).auto = s.auto := rfl
@[simp] theorem State.setFb_measW (v : Memory) : (s.setFb v).measW = s.measW := rfl
@[simp] theorem State.setFb_measH (v : Memory) : (s.setFb v).measH = s.measH := rfl
@[simp] theorem State.setFb_rdata (v : Memory) : (s.setFb v).rdata = s.rdata := rfl
@[simp] theorem State.setFb_fault (v : Memory) : (s.setFb v).fault = s.fault := rfl
@[simp] theorem State.setFb_busy (v : Memory) : (s.setFb v).busy = s.busy := rfl
@[simp] theorem State.setFb_cmd (v : Memory) : (s.setFb v).cmd = s.cmd := rfl
@[simp] theorem State.setFb_str (v : Memory) : (s.setFb v).str = s.str := rfl
@[simp] theorem State.setFb_history (v : Memory) : (s.setFb v).history = s.history := rfl
@[simp] theorem State.setFb_past (v : Memory) : (s.setFb v).past = s.past := rfl
@[simp] theorem State.setFb_rst (v : Memory) : (s.setFb v).rst = s.rst := rfl
@[simp] theorem State.setFb_stalled (v : Memory) : (s.setFb v).stalled = s.stalled := rfl
@[simp] theorem State.setFb_resets (v : Memory) : (s.setFb v).resets = s.resets := rfl

/-! ### setCursor -/

@[simp] theorem State.setCursor_params (c p : Half) : (s.setCursor c p).params = s.params := rfl
@[simp] theorem State.setCursor_fb (c p : Half) : (s.setCursor c p).fb = s.fb := rfl
@[simp] theorem State.setCursor_curCol (c p : Half) : (s.setCursor c p).curCol = c := rfl
@[simp] theorem State.setCursor_curPage (c p : Half) : (s.setCursor c p).curPage = p := rfl
@[simp] theorem State.setCursor_auto (c p : Half) : (s.setCursor c p).auto = s.auto := rfl
@[simp] theorem State.setCursor_measW (c p : Half) : (s.setCursor c p).measW = s.measW := rfl
@[simp] theorem State.setCursor_measH (c p : Half) : (s.setCursor c p).measH = s.measH := rfl
@[simp] theorem State.setCursor_rdata (c p : Half) : (s.setCursor c p).rdata = s.rdata := rfl
@[simp] theorem State.setCursor_fault (c p : Half) : (s.setCursor c p).fault = s.fault := rfl
@[simp] theorem State.setCursor_busy (c p : Half) : (s.setCursor c p).busy = s.busy := rfl
@[simp] theorem State.setCursor_cmd (c p : Half) : (s.setCursor c p).cmd = s.cmd := rfl
@[simp] theorem State.setCursor_str (c p : Half) : (s.setCursor c p).str = s.str := rfl
@[simp] theorem State.setCursor_history (c p : Half) : (s.setCursor c p).history = s.history := rfl
@[simp] theorem State.setCursor_past (c p : Half) : (s.setCursor c p).past = s.past := rfl
@[simp] theorem State.setCursor_rst (c p : Half) : (s.setCursor c p).rst = s.rst := rfl
@[simp] theorem State.setCursor_stalled (c p : Half) : (s.setCursor c p).stalled = s.stalled := rfl
@[simp] theorem State.setCursor_resets (c p : Half) : (s.setCursor c p).resets = s.resets := rfl

/-! ### setMeas -/

@[simp] theorem State.setMeas_params (w h : Half) : (s.setMeas w h).params = s.params := rfl
@[simp] theorem State.setMeas_fb (w h : Half) : (s.setMeas w h).fb = s.fb := rfl
@[simp] theorem State.setMeas_curCol (w h : Half) : (s.setMeas w h).curCol = s.curCol := rfl
@[simp] theorem State.setMeas_curPage (w h : Half) : (s.setMeas w h).curPage = s.curPage := rfl
@[simp] theorem State.setMeas_auto (w h : Half) : (s.setMeas w h).auto = s.auto := rfl
@[simp] theorem State.setMeas_measW (w h : Half) : (s.setMeas w h).measW = w := rfl
@[simp] theorem State.setMeas_measH (w h : Half) : (s.setMeas w h).measH = h := rfl
@[simp] theorem State.setMeas_rdata (w h : Half) : (s.setMeas w h).rdata = s.rdata := rfl
@[simp] theorem State.setMeas_fault (w h : Half) : (s.setMeas w h).fault = s.fault := rfl
@[simp] theorem State.setMeas_busy (w h : Half) : (s.setMeas w h).busy = s.busy := rfl
@[simp] theorem State.setMeas_cmd (w h : Half) : (s.setMeas w h).cmd = s.cmd := rfl
@[simp] theorem State.setMeas_str (w h : Half) : (s.setMeas w h).str = s.str := rfl
@[simp] theorem State.setMeas_history (w h : Half) : (s.setMeas w h).history = s.history := rfl
@[simp] theorem State.setMeas_past (w h : Half) : (s.setMeas w h).past = s.past := rfl
@[simp] theorem State.setMeas_rst (w h : Half) : (s.setMeas w h).rst = s.rst := rfl
@[simp] theorem State.setMeas_stalled (w h : Half) : (s.setMeas w h).stalled = s.stalled := rfl
@[simp] theorem State.setMeas_resets (w h : Half) : (s.setMeas w h).resets = s.resets := rfl

/-! ### setRdata -/

@[simp] theorem State.setRdata_params (v : Byte) : (s.setRdata v).params = s.params := rfl
@[simp] theorem State.setRdata_fb (v : Byte) : (s.setRdata v).fb = s.fb := rfl
@[simp] theorem State.setRdata_curCol (v : Byte) : (s.setRdata v).curCol = s.curCol := rfl
@[simp] theorem State.setRdata_curPage (v : Byte) : (s.setRdata v).curPage = s.curPage := rfl
@[simp] theorem State.setRdata_auto (v : Byte) : (s.setRdata v).auto = s.auto := rfl
@[simp] theorem State.setRdata_measW (v : Byte) : (s.setRdata v).measW = s.measW := rfl
@[simp] theorem State.setRdata_measH (v : Byte) : (s.setRdata v).measH = s.measH := rfl
@[simp] theorem State.setRdata_rdata (v : Byte) : (s.setRdata v).rdata = v := rfl
@[simp] theorem State.setRdata_fault (v : Byte) : (s.setRdata v).fault = s.fault := rfl
@[simp] theorem State.setRdata_busy (v : Byte) : (s.setRdata v).busy = s.busy := rfl
@[simp] theorem State.setRdata_cmd (v : Byte) : (s.setRdata v).cmd = s.cmd := rfl
@[simp] theorem State.setRdata_str (v : Byte) : (s.setRdata v).str = s.str := rfl
@[simp] theorem State.setRdata_history (v : Byte) : (s.setRdata v).history = s.history := rfl
@[simp] theorem State.setRdata_past (v : Byte) : (s.setRdata v).past = s.past := rfl
@[simp] theorem State.setRdata_rst (v : Byte) : (s.setRdata v).rst = s.rst := rfl
@[simp] theorem State.setRdata_stalled (v : Byte) : (s.setRdata v).stalled = s.stalled := rfl
@[simp] theorem State.setRdata_resets (v : Byte) : (s.setRdata v).resets = s.resets := rfl

/-! ### setCmd -/

@[simp] theorem State.setCmd_params (v : List Frame) : (s.setCmd v).params = s.params := rfl
@[simp] theorem State.setCmd_fb (v : List Frame) : (s.setCmd v).fb = s.fb := rfl
@[simp] theorem State.setCmd_curCol (v : List Frame) : (s.setCmd v).curCol = s.curCol := rfl
@[simp] theorem State.setCmd_curPage (v : List Frame) : (s.setCmd v).curPage = s.curPage := rfl
@[simp] theorem State.setCmd_auto (v : List Frame) : (s.setCmd v).auto = s.auto := rfl
@[simp] theorem State.setCmd_measW (v : List Frame) : (s.setCmd v).measW = s.measW := rfl
@[simp] theorem State.setCmd_measH (v : List Frame) : (s.setCmd v).measH = s.measH := rfl
@[simp] theorem State.setCmd_rdata (v : List Frame) : (s.setCmd v).rdata = s.rdata := rfl
@[simp] theorem State.setCmd_fault (v : List Frame) : (s.setCmd v).fault = s.fault := rfl
@[simp] theorem State.setCmd_busy (v : List Frame) : (s.setCmd v).busy = s.busy := rfl
@[simp] theorem State.setCmd_cmd (v : List Frame) : (s.setCmd v).cmd = v := rfl
@[simp] theorem State.setCmd_str (v : List Frame) : (s.setCmd v).str = s.str := rfl
@[simp] theorem State.setCmd_history (v : List Frame) : (s.setCmd v).history = s.history := rfl
@[simp] theorem State.setCmd_past (v : List Frame) : (s.setCmd v).past = s.past := rfl
@[simp] theorem State.setCmd_rst (v : List Frame) : (s.setCmd v).rst = s.rst := rfl
@[simp] theorem State.setCmd_stalled (v : List Frame) : (s.setCmd v).stalled = s.stalled := rfl
@[simp] theorem State.setCmd_resets (v : List Frame) : (s.setCmd v).resets = s.resets := rfl

/-! ### setStr -/

@[simp] theorem State.setStr_params (v : List Byte) : (s.setStr v).params = s.params := rfl
@[simp] theorem State.setStr_fb (v : List Byte) : (s.setStr v).fb = s.fb := rfl
@[simp] theorem State.setStr_curCol (v : List Byte) : (s.setStr v).curCol = s.curCol := rfl
@[simp] theorem State.setStr_curPage (v : List Byte) : (s.setStr v).curPage = s.curPage := rfl
@[simp] theorem State.setStr_auto (v : List Byte) : (s.setStr v).auto = s.auto := rfl
@[simp] theorem State.setStr_measW (v : List Byte) : (s.setStr v).measW = s.measW := rfl
@[simp] theorem State.setStr_measH (v : List Byte) : (s.setStr v).measH = s.measH := rfl
@[simp] theorem State.setStr_rdata (v : List Byte) : (s.setStr v).rdata = s.rdata := rfl
@[simp] theorem State.setStr_fault (v : List Byte) : (s.setStr v).fault = s.fault := rfl
@[simp] theorem State.setStr_busy (v : List Byte) : (s.setStr v).busy = s.busy := rfl
@[simp] theorem State.setStr_cmd (v : List Byte) : (s.setStr v).cmd = s.cmd := rfl
@[simp] theorem State.setStr_str (v : List Byte) : (s.setStr v).str = v := rfl
@[simp] theorem State.setStr_history (v : List Byte) : (s.setStr v).history = s.history := rfl
@[simp] theorem State.setStr_past (v : List Byte) : (s.setStr v).past = s.past := rfl
@[simp] theorem State.setStr_rst (v : List Byte) : (s.setStr v).rst = s.rst := rfl
@[simp] theorem State.setStr_stalled (v : List Byte) : (s.setStr v).stalled = s.stalled := rfl
@[simp] theorem State.setStr_resets (v : List Byte) : (s.setStr v).resets = s.resets := rfl

/-! ### emit -/

@[simp] theorem State.emit_params (ts : List Transaction) : (s.emit ts).params = s.params := rfl
@[simp] theorem State.emit_fb (ts : List Transaction) : (s.emit ts).fb = s.fb := rfl
@[simp] theorem State.emit_curCol (ts : List Transaction) : (s.emit ts).curCol = s.curCol := rfl
@[simp] theorem State.emit_curPage (ts : List Transaction) : (s.emit ts).curPage = s.curPage := rfl
@[simp] theorem State.emit_auto (ts : List Transaction) : (s.emit ts).auto = s.auto := rfl
@[simp] theorem State.emit_measW (ts : List Transaction) : (s.emit ts).measW = s.measW := rfl
@[simp] theorem State.emit_measH (ts : List Transaction) : (s.emit ts).measH = s.measH := rfl
@[simp] theorem State.emit_rdata (ts : List Transaction) : (s.emit ts).rdata = s.rdata := rfl
@[simp] theorem State.emit_fault (ts : List Transaction) : (s.emit ts).fault = s.fault := rfl
@[simp] theorem State.emit_busy (ts : List Transaction) : (s.emit ts).busy = s.busy := rfl
@[simp] theorem State.emit_cmd (ts : List Transaction) : (s.emit ts).cmd = s.cmd := rfl
@[simp] theorem State.emit_str (ts : List Transaction) : (s.emit ts).str = s.str := rfl
@[simp] theorem State.emit_history (ts : List Transaction) : (s.emit ts).history = s.history ++ ts := rfl
@[simp] theorem State.emit_past (ts : List Transaction) : (s.emit ts).past = s.past := rfl
@[simp] theorem State.emit_rst (ts : List Transaction) : (s.emit ts).rst = s.rst := rfl
@[simp] theorem State.emit_stalled (ts : List Transaction) : (s.emit ts).stalled = s.stalled := rfl
@[simp] theorem State.emit_resets (ts : List Transaction) : (s.emit ts).resets = s.resets := rfl

/-! ### setAuto -/

@[simp] theorem State.setAuto_params (b : Bool) : (s.setAuto b).params = s.params := rfl
@[simp] theorem State.setAuto_fb (b : Bool) : (s.setAuto b).fb = s.fb := rfl
@[simp] theorem State.setAuto_curCol (b : Bool) : (s.setAuto b).curCol = s.curCol := rfl
@[simp] theorem State.setAuto_curPage (b : Bool) : (s.setAuto b).curPage = s.curPage := rfl
@[simp] theorem State.setAuto_auto (b : Bool) : (s.setAuto b).auto = b := rfl
@[simp] theorem State.setAuto_measW (b : Bool) : (s.setAuto b).measW = s.measW := rfl
@[simp] theorem State.setAuto_measH (b : Bool) : (s.setAuto b).measH = s.measH := rfl
@[simp] theorem State.setAuto_rdata (b : Bool) : (s.setAuto b).rdata = s.rdata := rfl
@[simp] theorem State.setAuto_fault (b : Bool) : (s.setAuto b).fault = s.fault := rfl
@[simp] theorem State.setAuto_busy (b : Bool) : (s.setAuto b).busy = s.busy := rfl
@[simp] theorem State.setAuto_cmd (b : Bool) : (s.setAuto b).cmd = s.cmd := rfl
@[simp] theorem State.setAuto_str (b : Bool) : (s.setAuto b).str = s.str := rfl
@[simp] theorem State.setAuto_history (b : Bool) : (s.setAuto b).history = s.history := rfl
@[simp] theorem State.setAuto_past (b : Bool) : (s.setAuto b).past = s.past := rfl
@[simp] theorem State.setAuto_rst (b : Bool) : (s.setAuto b).rst = s.rst := rfl
@[simp] theorem State.setAuto_stalled (b : Bool) : (s.setAuto b).stalled = s.stalled := rfl
@[simp] theorem State.setAuto_resets (b : Bool) : (s.setAuto b).resets = s.resets := rfl

/-! ### setFault -/

@[simp] theorem State.setFault_params (b : Bool) : (s.setFault b).params = s.params := rfl
@[simp] theorem State.setFault_fb (b : Bool) : (s.setFault b).fb = s.fb := rfl
@[simp] theorem State.setFault_curCol (b : Bool) : (s.setFault b).curCol = s.curCol := rfl
@[simp] theorem State.setFault_curPage (b : Bool) : (s.setFault b).curPage = s.curPage := rfl
@[simp] theorem State.setFault_auto (b : Bool) : (s.setFault b).auto = s.auto := rfl
@[simp] theorem State.setFault_measW (b : Bool) : (s.setFault b).measW = s.measW := rfl
@[simp] theorem State.setFault_measH (b : Bool) : (s.setFault b).measH = s.measH := rfl
@[simp] theorem State.setFault_rdata (b : Bool) : (s.setFault b).rdata = s.rdata := rfl
@[simp] theorem State.setFault_fault (b : Bool) : (s.setFault b).fault = b := rfl
@[simp] theorem State.setFault_busy (b : Bool) : (s.setFault b).busy = s.busy := rfl
@[simp] theorem State.setFault_cmd (b : Bool) : (s.setFault b).cmd = s.cmd := rfl
@[simp] theorem State.setFault_str (b : Bool) : (s.setFault b).str = s.str := rfl
@[simp] theorem State.setFault_history (b : Bool) : (s.setFault b).history = s.history := rfl
@[simp] theorem State.setFault_past (b : Bool) : (s.setFault b).past = s.past := rfl
@[simp] theorem State.setFault_rst (b : Bool) : (s.setFault b).rst = s.rst := rfl
@[simp] theorem State.setFault_stalled (b : Bool) : (s.setFault b).stalled = s.stalled := rfl
@[simp] theorem State.setFault_resets (b : Bool) : (s.setFault b).resets = s.resets := rfl

/-! ### setBusy -/

@[simp] theorem State.setBusy_params (b : Bool) : (s.setBusy b).params = s.params := rfl
@[simp] theorem State.setBusy_fb (b : Bool) : (s.setBusy b).fb = s.fb := rfl
@[simp] theorem State.setBusy_curCol (b : Bool) : (s.setBusy b).curCol = s.curCol := rfl
@[simp] theorem State.setBusy_curPage (b : Bool) : (s.setBusy b).curPage = s.curPage := rfl
@[simp] theorem State.setBusy_auto (b : Bool) : (s.setBusy b).auto = s.auto := rfl
@[simp] theorem State.setBusy_measW (b : Bool) : (s.setBusy b).measW = s.measW := rfl
@[simp] theorem State.setBusy_measH (b : Bool) : (s.setBusy b).measH = s.measH := rfl
@[simp] theorem State.setBusy_rdata (b : Bool) : (s.setBusy b).rdata = s.rdata := rfl
@[simp] theorem State.setBusy_fault (b : Bool) : (s.setBusy b).fault = s.fault := rfl
@[simp] theorem State.setBusy_busy (b : Bool) : (s.setBusy b).busy = b := rfl
@[simp] theorem State.setBusy_cmd (b : Bool) : (s.setBusy b).cmd = s.cmd := rfl
@[simp] theorem State.setBusy_str (b : Bool) : (s.setBusy b).str = s.str := rfl
@[simp] theorem State.setBusy_history (b : Bool) : (s.setBusy b).history = s.history := rfl
@[simp] theorem State.setBusy_past (b : Bool) : (s.setBusy b).past = s.past := rfl
@[simp] theorem State.setBusy_rst (b : Bool) : (s.setBusy b).rst = s.rst := rfl
@[simp] theorem State.setBusy_stalled (b : Bool) : (s.setBusy b).stalled = s.stalled := rfl
@[simp] theorem State.setBusy_resets (b : Bool) : (s.setBusy b).resets = s.resets := rfl

end Sys2Proof.Machine
end

