-- ==== Sys2Proof/Laws/Ops.lean ====
section
/-! SUPPORT. One lemma per shared operation: what the store primitives, the writes of a drawing rule, the dispatcher and the end
of a command can do. -/

namespace Sys2Proof.Machine

/-! ### Ranges and indices -/

theorem mem_span {a b v : Int} : v ∈ span a b ↔ a ≤ v ∧ v ≤ b := by
  simp only [span, List.mem_map, List.mem_range]
  constructor
  · rintro ⟨k, hk, rfl⟩; omega
  · rintro ⟨h1, h2⟩; exact ⟨(v - a).toNat, by omega, by omega⟩

theorem span_length (a b : Int) : (span a b).length = (b + 1 - a).toNat := by simp [span]

theorem span_getElem? {a b : Int} {k : Nat} (h : a + (k : Int) ≤ b) : (span a b)[k]? = some (a + (k : Int)) := by
  have : k < (b + 1 - a).toNat := by omega
  simp [span, this]

theorem inRange_iff {c p : Int} : inRange c p = true ↔ 0 ≤ c ∧ c < 128 ∧ 0 ≤ p ∧ p < 8 := by
  simp [inRange, and_assoc]

theorem idx_lt {c p : Int} (h : inRange c p = true) : idx c p < 1024 := by
  rw [inRange_iff] at h; unfold idx; omega

/-- Two cells of the framebuffer share an index only if they are the same cell (20_memory R51). -/
theorem idx_inj {c p c' p' : Int} (h : inRange c p = true) (h' : inRange c' p' = true) :
    idx c p = idx c' p' ↔ c = c' ∧ p = p' := by
  rw [inRange_iff] at h h'; unfold idx; omega

/-! ### The store primitives (20_memory R55 to R59) -/

/-- The byte Apply leaves (20_memory R57 to R59): the bits of m set, or cleared if inverted. -/
def applied (inv : Bool) (m old : Byte) : Byte := if inv then old &&& ~~~m else old ||| m

theorem applied_bit (inv : Bool) (m old : Byte) (k : Nat) :
    (applied inv m old).getLsbD k = if m.getLsbD k then !inv else old.getLsbD k := by
  by_cases hk : k < 8
  · cases inv
    · simp only [applied, BitVec.getLsbD_or, Bool.false_eq_true, if_false]
      cases m.getLsbD k <;> cases old.getLsbD k <;> rfl
    · simp only [applied, BitVec.getLsbD_and, BitVec.getLsbD_not, hk, decide_true, if_true]
      cases m.getLsbD k <;> cases old.getLsbD k <;> rfl
  · have h8 : ∀ v : Byte, v.getLsbD k = false := fun v => BitVec.getLsbD_of_ge v k (by omega)
    rw [h8, h8, h8]; rfl

theorem fbSet_wf {fb : Memory} (h : fb.wf = true) (c p : Int) (v : Byte) : (fbSet fb c p v).wf = true := by
  unfold fbSet; split
  · next hr => exact Memory.write_wf h (idx_lt hr)
  · exact h

theorem read_fbSet {fb : Memory} (h : fb.wf = true) (c p : Int) (v : Byte) (a : Nat) :
    (fbSet fb c p v).read a = if inRange c p = true ∧ a = idx c p then v else fb.read a := by
  unfold fbSet; split
  · next hr => simp [hr, Memory.read_write h]
  · next hr => simp [hr]

theorem apply_eq (fb : Memory) (c p : Int) (m : Byte) (inv : Bool) :
    apply fb c p m inv = fbSet fb c p (applied inv m (fb.read (idx c p))) := by
  cases inv <;> rfl

theorem fbOr_eq (fb : Memory) (c p : Int) (m : Byte) : fbOr fb c p m = apply fb c p m false := rfl

theorem fbAndNot_eq (fb : Memory) (c p : Int) (m : Byte) : fbAndNot fb c p m = apply fb c p m true := rfl

theorem apply_wf {fb : Memory} (h : fb.wf = true) (c p : Int) (m : Byte) (inv : Bool) :
    (apply fb c p m inv).wf = true := by
  rw [apply_eq]; exact fbSet_wf h _ _ _

theorem read_apply {fb : Memory} (h : fb.wf = true) (c p : Int) (m : Byte) (inv : Bool) (a : Nat) :
    (apply fb c p m inv).read a =
      if inRange c p = true ∧ a = idx c p then applied inv m (fb.read a) else fb.read a := by
  rw [apply_eq, read_fbSet h]
  split
  · next hr => rw [hr.2]
  · rfl

/-- Whether the pixel (x, y) is one of those a write applies. -/
def MaskWrite.hits (w : MaskWrite) (x y : Int) : Bool :=
  decide (w.col = x) && decide (w.page = y / 8) && w.mask.getLsbD (y % 8).toNat

theorem pixel_apply {fb : Memory} (h : fb.wf = true) (w : MaskWrite) (inv : Bool) {x y : Int}
    (hx : 0 ≤ x ∧ x < 128) (hy : 0 ≤ y ∧ y < 64) :
    pixel (apply fb w.col w.page w.mask inv) x y = if w.hits x y then !inv else pixel fb x y := by
  have hr : inRange x (y / 8) = true := inRange_iff.2 (by omega)
  unfold pixel MaskWrite.hits
  rw [read_apply h]
  by_cases hc : w.col = x ∧ w.page = y / 8
  · obtain ⟨h1, h2⟩ := hc
    subst h1
    rw [h2, if_pos ⟨hr, rfl⟩, applied_bit]
    simp
  · rw [if_neg]
    · have : (decide (w.col = x) && decide (w.page = y / 8)) = false := by simpa using hc
      simp [this]
    · rintro ⟨hr', he⟩
      exact hc ((idx_inj hr' hr).1 he.symm)

/-! ### The writes of a drawing rule -/

theorem applyAll_wf (inv : Bool) (ws : List MaskWrite) {fb : Memory} (h : fb.wf = true) :
    (applyAll inv ws fb).wf = true := by
  induction ws generalizing fb with
  | nil => exact h
  | cons w ws ih => exact ih (apply_wf h _ _ _ _)

theorem applyAll_append (inv : Bool) (ws vs : List MaskWrite) (fb : Memory) :
    applyAll inv (ws ++ vs) fb = applyAll inv vs (applyAll inv ws fb) := by
  induction ws generalizing fb with
  | nil => rfl
  | cons w ws ih => exact ih _

/-- What a drawing rule does to a pixel: set or cleared if one of its writes hits it, else as before (20_memory R59). -/
theorem pixel_applyAll (inv : Bool) (ws : List MaskWrite) {fb : Memory} (h : fb.wf = true) {x y : Int}
    (hx : 0 ≤ x ∧ x < 128) (hy : 0 ≤ y ∧ y < 64) :
    pixel (applyAll inv ws fb) x y = if ws.any (fun w => w.hits x y) then !inv else pixel fb x y := by
  induction ws generalizing fb with
  | nil => rfl
  | cons w ws ih =>
    rw [applyAll, ih (apply_wf h _ _ _ _), pixel_apply h w inv hx hy, List.any_cons]
    cases w.hits x y <;> cases ws.any (fun w => w.hits x y) <;> rfl

/-- A byte that no write of a drawing rule names is as before. -/
theorem read_applyAll_other (inv : Bool) (ws : List MaskWrite) {fb : Memory} (h : fb.wf = true) {a : Nat}
    (ha : ∀ w ∈ ws, ¬(inRange w.col w.page = true ∧ a = idx w.col w.page)) :
    (applyAll inv ws fb).read a = fb.read a := by
  induction ws generalizing fb with
  | nil => rfl
  | cons w ws ih =>
    rw [applyAll, ih (apply_wf h _ _ _ _) (fun v hv => ha v (List.mem_cons_of_mem _ hv)), read_apply h,
      if_neg (ha w (List.mem_cons_self ..))]

/-- The byte of a cell is the byte of its eight pixels (20_memory R52). -/
theorem read_eq_of_pixels {fb fb' : Memory} {c p : Int}
    (hp : ∀ k : Nat, k < 8 → pixel fb c (8 * p + k) = pixel fb' c (8 * p + k)) :
    fb.read (idx c p) = fb'.read (idx c p) := by
  refine BitVec.eq_of_getLsbD_eq fun k hk => ?_
  have := hp k hk
  unfold pixel at this
  have h1 : (8 * p + (k : Int)) / 8 = p := by omega
  have h2 : ((8 * p + (k : Int)) % 8).toNat = k := by omega
  rwa [h1, h2] at this

/-- Two canonical framebuffers with the same pixels are the same data. -/
theorem eq_of_pixels {fb fb' : Memory} (h : fb.wf = true) (h' : fb'.wf = true)
    (hp : ∀ x y : Int, 0 ≤ x ∧ x < 128 → 0 ≤ y ∧ y < 64 → pixel fb x y = pixel fb' x y) : fb = fb' := by
  refine Memory.ext_of_wf h h' fun a => ?_
  by_cases ha : a < 1024
  · have he : a = idx (a % 128 : Nat) (a / 128 : Nat) := by unfold idx; omega
    rw [he]
    exact read_eq_of_pixels fun k hk => hp _ _ (by omega) (by omega)
  · rw [Memory.read_of_ge (lo := 0) h (by omega), Memory.read_of_ge (lo := 0) h' (by omega)]

/-! ### Reset -/

/-- The framebuffer after reset holds the free bytes of FB_RESET (70 R283). -/
theorem State.reset_fb : State.reset.fb = Memory.ofBytes (Config.fbReset 0) := by
  unfold State.reset; dsimp only

/-- The framebuffer after reset is canonical. -/
theorem State.reset_fb_wf : State.reset.fb.wf = true := by
  rw [State.reset_fb]; exact Memory.ofBytes_wf _

theorem hardwareReset_fb (s : State) :
    (hardwareReset s).fb = Memory.ofBytes (Config.fbReset (s.resets + 1)) := by
  unfold hardwareReset; dsimp only

theorem hardwareReset_fb_wf (s : State) : (hardwareReset s).fb.wf = true := by
  rw [hardwareReset_fb]; exact Memory.ofBytes_wf _

/-- The machine's parameters are ones the spec allows. -/
theorem machineParams_wf : paramsWf machineParams = true := by
  have h : fontBytes.length = 480 := by rw [fontBytes, List.length_map, List.length_range]
  show (fontBytes.length == 480 && (7 == 7 || 7 == 8)) = true
  rw [h]; rfl

/-! ### Updates made of several -/

@[simp] theorem State.draw_fb (s : State) (inv : Bool) (ws : List MaskWrite) :
    (s.draw inv ws).fb = applyAll inv ws s.fb := rfl

theorem State.draw_eq (s : State) (inv : Bool) (ws : List MaskWrite) :
    s.draw inv ws = { s with fb := applyAll inv ws s.fb } := rfl

theorem State.emit_nil (s : State) : s.emit [] = s := by simp [State.emit]

theorem State.emit_emit (s : State) (ts us : List Transaction) : (s.emit ts).emit us = s.emit (ts ++ us) := by
  simp [State.emit, List.append_assoc]

theorem State.flush_eq (s : State) (c0 c1 p0 p1 : Int) :
    s.flush c0 c1 p0 p1 = { s with history := s.history ++ flushTransactions s.fb c0 c1 p0 p1 } := rfl

/-- What AutoFlush emits (44 R231). -/
def autoTransactions (auto : Bool) (fb : Memory) (c0 c1 p0 p1 : Int) : List Transaction :=
  if auto then flushTransactions fb c0 c1 p0 p1 else []

/-- AutoFlush only appends to the history (44 R231). -/
theorem State.autoFlush_eq (s : State) (c0 c1 p0 p1 : Int) :
    s.autoFlush c0 c1 p0 p1 = { s with history := s.history ++ autoTransactions s.auto s.fb c0 c1 p0 p1 } := by
  unfold State.autoFlush autoTransactions
  split
  · rfl
  · rw [List.append_nil]

/-! ### The transport channel (20_memory R65, R66; 44 R230) -/

theorem flushTransactions_empty {fb : Memory} {c0 c1 p0 p1 : Int}
    (h : max c0 0 > min c1 127 ∨ max p0 0 > min p1 7) : flushTransactions fb c0 c1 p0 p1 = [] := by
  simp only [flushTransactions, h, if_true]

/-- A flush of a region that meets the buffer: one pair a page (44 R230). -/
theorem flushTransactions_pages {fb : Memory} {c0 c1 p0 p1 : Int}
    (h : ¬(max c0 0 > min c1 127 ∨ max p0 0 > min p1 7)) :
    flushTransactions fb c0 c1 p0 p1 =
      (span (max p0 0) (min p1 7)).flatMap fun p =>
        [.addr (max c0 0).toNat p.toNat, .data ((span (max c0 0) (min c1 127)).map fun c => fb.read (idx c p))] := by
  simp only [flushTransactions, h, if_false]

end Sys2Proof.Machine
end

