-- ==== Sys2Proof/Laws/Exec.lean ====
section
/-! SUPPORT. What a command can do, said once: the end of a command, the taking of a payload, one equation for `exec` over a
pure effect, and what every effect keeps. -/

namespace Sys2Proof.Machine

/-! ### The end of a command -/

theorem complete_of_accepting {s : State} (h : s.stalled = false) (t : State) :
    complete s t = .next (t.setBusy false) := by
  simp [complete, h]

/-- A command that emits nothing completes whatever the transport does. -/
theorem complete_of_quiet {s t : State} (h : t.history = s.history) : complete s t = .next (t.setBusy false) := by
  simp [complete, h]

/-- A command that emits while the transport does not accept is stuck (70 R293). -/
theorem complete_of_stalled {s t : State} (h : s.stalled = true) (hl : t.history.length ≠ s.history.length) :
    complete s t = .fault .transportStalled := by
  simp [complete, h, hl]

theorem complete_next {s t u : State} (h : complete s t = .next u) :
    u = t.setBusy false ∧ (s.stalled = true → t.history.length = s.history.length) := by
  unfold complete at h
  split at h
  · exact absurd h (by simp)
  · next hc =>
    simp only [Bool.and_eq_true, bne_iff_ne, ne_eq, not_and, Decidable.not_not] at hc
    exact ⟨(Host.Outcome.next.inj h).symm, hc⟩

/-! ### One equation for exec -/

/-- What a command does to the state, given its payload, once STR no longer holds it. -/
def effect (i : Instr) (bytes : List Byte) (s : State) : State :=
  match i with
  | .init => initialise s
  | .setcursor col page => s.setCursor col page
  | .clear => s.setFb Memory.clear
  | .clearflush => (s.setFb Memory.clear).flush 0 127 0 7
  | .putchar inv ch => charAtCursor ch inv s
  | .printstr inv absent _ => if absent then s else printAtCursor inv bytes s
  | .putcharxy inv ch x y => charAtXY ch (coord x) (coord y) inv s
  | .printstrxy inv absent _ x y => if absent then s else printAtXY (coord x) (coord y) inv bytes s
  | .drawrect inv x0 y0 x1 y1 => drawBox outlineWrites inv (boxOf x0 y0 x1 y1) s
  | .fillrect inv x0 y0 x1 y1 => drawBox fillWrites inv (boxOf x0 y0 x1 y1) s
  | .measure absent _ => if absent then s else storeMeasure bytes s
  | .flushall => s.flush 0 127 0 7
  | .flushregion c0 p0 c1 p1 => s.flush (coord c0) (coord c1) (coord p0) (coord p1)
  | .setmode auto => s.setAuto auto
  | .getb col page =>
    if inRange (coord col) (coord page) then s.setRdata (fbGet s.fb (coord col) (coord page)) else s
  | .setb col page v => s.setFb (fbSet s.fb (coord col) (coord page) v)
  | .orb col page m => s.setFb (fbOr s.fb (coord col) (coord page) m)
  | .andnb col page m => s.setFb (fbAndNot s.fb (coord col) (coord page) m)

/-- The state after the payload of `i` has been taken from STR. -/
def taken (i : Instr) (s : State) : State := s.setStr (s.str.drop (payloadLength i))

theorem taken_zero {i : Instr} (h : payloadLength i = 0) (s : State) : taken i s = s := by
  simp [taken, h, State.setStr]

theorem withString_eq (absent : Bool) (len : Byte) (s : State) (body : List Byte → State → State) :
    withString absent len s body =
      if stringPayload absent len ≤ s.str.length then
        complete s
          (if absent then s.setStr (s.str.drop (stringPayload absent len))
            else body (s.str.take (stringPayload absent len)) (s.setStr (s.str.drop (stringPayload absent len))))
      else .fault .payloadShort := by
  cases absent with
  | true => simp [withString, stringPayload, State.setStr]
  | false =>
    simp only [withString, takePayload, stringPayload, count, Bool.false_eq_true, if_false]
    by_cases h : len.toNat ≤ s.str.length <;> simp [h]

/-- A command without payload. -/
theorem exec_eq_of_no_payload {i : Instr} {s : State} (h0 : payloadLength i = 0)
    (he : exec i s = complete s (effect i [] s)) :
    exec i s =
      if payloadLength i ≤ s.str.length then
        complete s (effect i (s.str.take (payloadLength i)) (taken i s))
      else .fault .payloadShort := by
  rw [h0, if_pos (Nat.zero_le _), taken_zero h0, List.take_zero, he]

/-- Every command: its payload is taken from STR, its effect follows, and it completes; a payload that is short is waited for
for ever. -/
theorem exec_eq_effect (i : Instr) (s : State) :
    exec i s =
      if payloadLength i ≤ s.str.length then
        complete s (effect i (s.str.take (payloadLength i)) (taken i s))
      else .fault .payloadShort := by
  cases i <;> first
    | exact withString_eq _ _ s _
    | exact exec_eq_of_no_payload rfl rfl

theorem exec_of_accepting {i : Instr} {s : State} (hs : s.stalled = false) (hp : payloadLength i ≤ s.str.length) :
    exec i s = .next ((effect i (s.str.take (payloadLength i)) (taken i s)).setBusy false) := by
  rw [exec_eq_effect, if_pos hp, complete_of_accepting hs]

/-- The inversion of `exec`: if it answers a next state, that state is the effect's with BUSY low. -/
theorem exec_next {i : Instr} {s t : State} (h : exec i s = .next t) :
    t = (effect i (s.str.take (payloadLength i)) (taken i s)).setBusy false ∧
      payloadLength i ≤ s.str.length := by
  rw [exec_eq_effect] at h
  split at h
  · next hp => exact ⟨(complete_next h).1, hp⟩
  · exact absurd h (by simp)

/-! ### What every effect keeps -/

/-- The state a command never writes, and the history it only appends to (10_state R36, 20_memory R71). -/
structure Keeps (s t : State) : Prop where
  params : t.params = s.params
  fault : t.fault = s.fault
  busy : t.busy = s.busy
  cmd : t.cmd = s.cmd
  str : t.str = s.str
  past : t.past = s.past
  rst : t.rst = s.rst
  stalled : t.stalled = s.stalled
  resets : t.resets = s.resets
  history : ∃ ts, t.history = s.history ++ ts

theorem Keeps.refl (s : State) : Keeps s s :=
  ⟨rfl, rfl, rfl, rfl, rfl, rfl, rfl, rfl, rfl, [], by simp⟩

theorem Keeps.trans {s t u : State} (h : Keeps s t) (k : Keeps t u) : Keeps s u := by
  obtain ⟨ts, ht⟩ := h.history
  obtain ⟨us, hu⟩ := k.history
  exact ⟨k.params.trans h.params, k.fault.trans h.fault, k.busy.trans h.busy, k.cmd.trans h.cmd,
    k.str.trans h.str, k.past.trans h.past, k.rst.trans h.rst, k.stalled.trans h.stalled,
    k.resets.trans h.resets, ts ++ us, by rw [hu, ht, List.append_assoc]⟩

/-- A change of the framebuffer and the registers only. -/
theorem Keeps.of_eq {s t : State}
    (h : t = { s with fb := t.fb, curCol := t.curCol, curPage := t.curPage, auto := t.auto, measW := t.measW,
                      measH := t.measH, rdata := t.rdata }) : Keeps s t := by
  rw [h]; exact ⟨rfl, rfl, rfl, rfl, rfl, rfl, rfl, rfl, rfl, [], by simp⟩

theorem Keeps.emit (s : State) (ts : List Transaction) : Keeps s (s.emit ts) :=
  ⟨rfl, rfl, rfl, rfl, rfl, rfl, rfl, rfl, rfl, ts, rfl⟩

theorem Keeps.autoFlush (s : State) (c0 c1 p0 p1 : Int) : Keeps s (s.autoFlush c0 c1 p0 p1) := by
  rw [State.autoFlush_eq]; exact Keeps.emit s _

/-! ### The drawing procedures as updates -/

/-- CharAtCursor writes the framebuffer, the history and CUR_COL (41 R141). -/
theorem charAtCursor_eq (ch : Byte) (inv : Bool) (s : State) :
    charAtCursor ch inv s =
      { s with
        fb := applyAll inv (cursorWrites s.params ((glyphSlot ch).getD 0) (coord s.curCol) (coord s.curPage)) s.fb
        history := s.history ++ autoTransactions s.auto
          (applyAll inv (cursorWrites s.params ((glyphSlot ch).getD 0) (coord s.curCol) (coord s.curPage)) s.fb)
          (coord s.curCol) (coord s.curCol + 4) (coord s.curPage) (coord s.curPage)
        curCol := wrap16 (coord s.curCol + 6) } := by
  simp only [charAtCursor, State.autoFlush_eq]
  rfl

/-- The writes of one glyph at a pixel position (42 R164, R165). -/
def xyWrites (p : Params) (g : Fin 96) (x y : Int) : List MaskWrite :=
  if (y % 8).toNat = 0 then alignedWrites p g x (y / 8) else splitWrites p g x (y / 8) (y % 8).toNat

/-- The last page of the flush of one glyph at a pixel position (42 R168). -/
def xyLastPage (y : Int) : Int := if (y % 8).toNat = 0 then y / 8 else y / 8 + 1

/-- CharAtXY does nothing for an invalid code or an off-canvas position (42 R161, R162). -/
theorem charAtXY_skip {ch : Byte} {x y : Int} (h : glyphSlot ch = none ∨ offCanvas x y = true) (inv : Bool)
    (s : State) : charAtXY ch x y inv s = s := by
  unfold charAtXY
  rcases h with h | h
  · rw [h]
  · split
    · rfl
    · rw [if_pos h]

/-- CharAtXY writes the framebuffer and the history only (42 R160). -/
theorem charAtXY_draw {ch : Byte} {g : Fin 96} {x y : Int} (hg : glyphSlot ch = some g)
    (hc : offCanvas x y = false) (inv : Bool) (s : State) :
    charAtXY ch x y inv s =
      { s with
        fb := applyAll inv (xyWrites s.params g x y) s.fb
        history := s.history ++ autoTransactions s.auto (applyAll inv (xyWrites s.params g x y) s.fb)
          x (x + 4) (y / 8) (xyLastPage y) } := by
  simp only [charAtXY, hg, hc, Bool.false_eq_true, if_false]
  unfold xyWrites xyLastPage
  split
  · rw [State.autoFlush_eq]; rfl
  · rw [State.autoFlush_eq]; rfl

theorem drawBox_rejected {b : Box} (h : b.rejected = true) (writes : Box → List MaskWrite) (inv : Bool) (s : State) :
    drawBox writes inv b s = s := by
  simp [drawBox, h]

/-- A rectangle command that is not rejected writes the framebuffer and the history only (43 R210, R220). -/
theorem drawBox_eq {b : Box} (h : b.rejected = false) (writes : Box → List MaskWrite) (inv : Bool) (s : State) :
    drawBox writes inv b s =
      { s with
        fb := applyAll inv (writes b) s.fb
        history := s.history ++ autoTransactions s.auto (applyAll inv (writes b) s.fb) b.cs b.ce b.ps b.pe } := by
  simp only [drawBox, h, Bool.false_eq_true, if_false, State.autoFlush_eq]
  rfl

/-! ### The loops -/

/-- A relation between states that CharAtCursor keeps holds over a whole PRINTSTR. -/
theorem printAtCursor_rel {R : State → State → Prop} (refl : ∀ s, R s s) (trans : ∀ {s t u}, R s t → R t u → R s u)
    (inv : Bool) (hstep : ∀ ch s, R s (charAtCursor ch inv s)) (bytes : List Byte) (s : State) :
    R s (printAtCursor inv bytes s) := by
  induction bytes generalizing s with
  | nil => exact refl s
  | cons ch rest ih => exact trans (hstep ch s) (ih _)

/-- A relation between states that CharAtXY keeps holds over a whole PRINTSTRXY walk. -/
theorem walkXY_rel {R : State → State → Prop} (refl : ∀ s, R s s) (trans : ∀ {s t u}, R s t → R t u → R s u)
    (inv : Bool) (hstep : ∀ ch x y s, R s (charAtXY ch x y inv s)) (x : Int) (bytes : List Byte) (cx cy : Int)
    (s : State) : R s (walkXY x inv bytes cx cy s) := by
  induction bytes generalizing cx cy s with
  | nil => exact refl s
  | cons b rest ih =>
    rw [walkXY]
    split
    · split
      · exact refl s
      · exact ih _ _ _
    · exact trans (hstep _ _ _ _) (ih _ _ _)

theorem printAtXY_rel {R : State → State → Prop} (refl : ∀ s, R s s) (trans : ∀ {s t u}, R s t → R t u → R s u)
    (inv : Bool) (hstep : ∀ ch x y s, R s (charAtXY ch x y inv s)) (x y : Int) (bytes : List Byte) (s : State) :
    R s (printAtXY x y inv bytes s) := by
  unfold printAtXY
  split
  · exact refl s
  · exact walkXY_rel refl trans inv hstep _ _ _ _ _

theorem charAtCursor_keeps (ch : Byte) (inv : Bool) (s : State) : Keeps s (charAtCursor ch inv s) := by
  rw [charAtCursor_eq]; exact ⟨rfl, rfl, rfl, rfl, rfl, rfl, rfl, rfl, rfl, _, rfl⟩

theorem charAtXY_keeps (ch : Byte) (x y : Int) (inv : Bool) (s : State) : Keeps s (charAtXY ch x y inv s) := by
  cases hg : glyphSlot ch with
  | none => rw [charAtXY_skip (.inl hg)]; exact Keeps.refl s
  | some g =>
    cases hc : offCanvas x y with
    | true => rw [charAtXY_skip (.inr hc)]; exact Keeps.refl s
    | false => rw [charAtXY_draw hg hc]; exact ⟨rfl, rfl, rfl, rfl, rfl, rfl, rfl, rfl, rfl, _, rfl⟩

theorem drawBox_keeps (writes : Box → List MaskWrite) (inv : Bool) (b : Box) (s : State) :
    Keeps s (drawBox writes inv b s) := by
  cases h : b.rejected with
  | true => rw [drawBox_rejected h]; exact Keeps.refl s
  | false => rw [drawBox_eq h]; exact ⟨rfl, rfl, rfl, rfl, rfl, rfl, rfl, rfl, rfl, _, rfl⟩

/-- No command writes the parameters, FAULT, the host's channels or the reset input; all it does to the history is to append
(10_state R29, R36; 20_memory R71). -/
theorem effect_keeps (i : Instr) (bytes : List Byte) (s : State) : Keeps s (effect i bytes s) := by
  cases i with
  | init => exact Keeps.of_eq rfl
  | setcursor => exact Keeps.of_eq rfl
  | clear => exact Keeps.of_eq rfl
  | clearflush => exact Keeps.trans (Keeps.of_eq (t := s.setFb Memory.clear) rfl) (Keeps.emit _ _)
  | putchar => exact charAtCursor_keeps _ _ _
  | printstr inv absent len =>
    cases absent
    · exact printAtCursor_rel Keeps.refl Keeps.trans inv (fun ch s => charAtCursor_keeps ch inv s) _ _
    · exact Keeps.refl s
  | putcharxy => exact charAtXY_keeps _ _ _ _ _
  | printstrxy inv absent len x y =>
    cases absent
    · exact printAtXY_rel Keeps.refl Keeps.trans inv (fun ch x y s => charAtXY_keeps ch x y inv s) _ _ _ _
    · exact Keeps.refl s
  | drawrect => exact drawBox_keeps _ _ _ _
  | fillrect => exact drawBox_keeps _ _ _ _
  | measure absent len =>
    cases absent
    · exact Keeps.of_eq rfl
    · exact Keeps.refl s
  | flushall => exact Keeps.emit _ _
  | flushregion => exact Keeps.emit _ _
  | setmode => exact Keeps.of_eq rfl
  | getb col page =>
    simp only [effect]
    split
    · exact Keeps.of_eq rfl
    · exact Keeps.refl s
  | setb => exact Keeps.of_eq rfl
  | orb => exact Keeps.of_eq rfl
  | andnb => exact Keeps.of_eq rfl

end Sys2Proof.Machine
end

