-- ==== Sys2Proof/Laws/Flush.lean ====
section
/-! SUPPORT. The transactions of a flush: pairs of one page, at most 128 bytes each (20_memory R65, R66; 44 R230), and the form of
the three drawing procedures as updates of the framebuffer and the history. -/

namespace Sys2Proof.Machine

/-! ### Pairs -/

/-- Pairs followed by pairs are pairs. -/
theorem historyPaired_append : ∀ {ts us : List Transaction}, historyPaired ts = true → historyPaired us = true →
    historyPaired (ts ++ us) = true
  | [], _, _, h => h
  | [.addr _ _], _, h, _ => absurd h (by simp [historyPaired])
  | .addr c p :: .data bytes :: rest, us, h, h' => by
    simp only [historyPaired, Bool.and_eq_true, List.cons_append] at h ⊢
    exact ⟨h.1, historyPaired_append h.2 h'⟩
  | .addr _ _ :: .addr _ _ :: _, _, h, _ => absurd h (by simp [historyPaired])
  | .data _ :: _, _, h, _ => absurd h (by simp [historyPaired])

/-- One pair for each element of a list. -/
theorem historyPaired_flatMap {α : Type} {f : α → List Transaction} : ∀ {l : List α},
    (∀ a ∈ l, historyPaired (f a) = true) → historyPaired (l.flatMap f) = true
  | [], _ => rfl
  | a :: l, h => by
    rw [List.flatMap_cons]
    exact historyPaired_append (h a (List.mem_cons_self ..))
      (historyPaired_flatMap fun b hb => h b (List.mem_cons_of_mem _ hb))

/-- The clamped bounds of a flush (44 R230) give pairs within the framebuffer. -/
theorem flushTransactions_paired (fb : Memory) (c0 c1 p0 p1 : Int) :
    historyPaired (flushTransactions fb c0 c1 p0 p1) = true := by
  by_cases h : max c0 0 > min c1 127 ∨ max p0 0 > min p1 7
  · rw [flushTransactions_empty h]; rfl
  · rw [flushTransactions_pages h]
    refine historyPaired_flatMap fun p hp => ?_
    rw [mem_span] at hp
    simp only [historyPaired, List.length_map, span_length, Bool.and_true, Bool.and_eq_true, decide_eq_true_eq]
    omega

theorem autoTransactions_paired (auto : Bool) (fb : Memory) (c0 c1 p0 p1 : Int) :
    historyPaired (autoTransactions auto fb c0 c1 p0 p1) = true := by
  unfold autoTransactions
  split
  · exact flushTransactions_paired ..
  · rfl

/-- The bytes of pairs one after the other (44 R236). -/
theorem dataBytes_append : ∀ ts us : List Transaction, dataBytes (ts ++ us) = dataBytes ts ++ dataBytes us
  | [], _ => rfl
  | .addr _ _ :: rest, us => dataBytes_append rest us
  | .data bytes :: rest, us => by
    rw [List.cons_append, dataBytes, dataBytes, dataBytes_append rest us, List.append_assoc]

/-! ### The drawing procedures change the framebuffer and the history -/

/-- CharAtXY, whatever its operands (42 R160). -/
theorem charAtXY_form (ch : Byte) (x y : Int) (inv : Bool) (s : State) :
    ∃ (ws : List MaskWrite) (ts : List Transaction),
      charAtXY ch x y inv s = { s with fb := applyAll inv ws s.fb, history := s.history ++ ts } ∧
      historyPaired ts = true ∧ (s.auto = false → ts = []) := by
  have skip : ∃ (ws : List MaskWrite) (ts : List Transaction),
      s = { s with fb := applyAll inv ws s.fb, history := s.history ++ ts } ∧
      historyPaired ts = true ∧ (s.auto = false → ts = []) :=
    ⟨[], [], by rw [List.append_nil]; rfl, rfl, fun _ => rfl⟩
  cases hg : glyphSlot ch with
  | none => rw [charAtXY_skip (.inl hg)]; exact skip
  | some g =>
    cases hc : offCanvas x y with
    | true => rw [charAtXY_skip (.inr hc)]; exact skip
    | false => exact ⟨_, _, charAtXY_draw hg hc inv s, autoTransactions_paired .., fun h => by rw [h]; rfl⟩

/-- A rectangle command, whatever its operands (43 R210, R220). -/
theorem drawBox_form (writes : Box → List MaskWrite) (inv : Bool) (b : Box) (s : State) :
    ∃ (ws : List MaskWrite) (ts : List Transaction),
      drawBox writes inv b s = { s with fb := applyAll inv ws s.fb, history := s.history ++ ts } ∧
      historyPaired ts = true ∧ (s.auto = false → ts = []) := by
  cases h : b.rejected with
  | true =>
    rw [drawBox_rejected h]
    exact ⟨[], [], by rw [List.append_nil]; rfl, rfl, fun _ => rfl⟩
  | false => exact ⟨_, _, drawBox_eq h writes inv s, autoTransactions_paired .., fun h => by rw [h]; rfl⟩

end Sys2Proof.Machine
end

