-- ==== Sys2Proof/Laws/Control.lean ====
section
/-! SUPPORT. No command reads the control state: FAULT, BUSY, the host's channels, the reset input, the transport's readiness. Its
effect is the same whatever they hold (10_state R32). -/

namespace Sys2Proof.Machine

/-- `s` with the control state of `k`. -/
def State.onto (s k : State) : State :=
  { s with
    fault := k.fault
    busy := k.busy
    cmd := k.cmd
    str := k.str
    past := k.past
    rst := k.rst
    stalled := k.stalled
    resets := k.resets }

theorem charAtCursor_onto (ch : Byte) (inv : Bool) (s k : State) :
    charAtCursor ch inv (s.onto k) = (charAtCursor ch inv s).onto k := by
  simp only [charAtCursor_eq, State.onto]

theorem printAtCursor_onto (inv : Bool) (bytes : List Byte) (s k : State) :
    printAtCursor inv bytes (s.onto k) = (printAtCursor inv bytes s).onto k := by
  induction bytes generalizing s with
  | nil => rfl
  | cons ch rest ih => simp only [printAtCursor]; rw [charAtCursor_onto, ih]

theorem charAtXY_onto (ch : Byte) (x y : Int) (inv : Bool) (s k : State) :
    charAtXY ch x y inv (s.onto k) = (charAtXY ch x y inv s).onto k := by
  cases hg : glyphSlot ch with
  | none => rw [charAtXY_skip (.inl hg), charAtXY_skip (.inl hg)]
  | some g =>
    cases hc : offCanvas x y with
    | true => rw [charAtXY_skip (.inr hc), charAtXY_skip (.inr hc)]
    | false => simp only [charAtXY_draw hg hc, State.onto]

theorem walkXY_onto (x : Int) (inv : Bool) (bytes : List Byte) (cx cy : Int) (s k : State) :
    walkXY x inv bytes cx cy (s.onto k) = (walkXY x inv bytes cx cy s).onto k := by
  induction bytes generalizing cx cy s with
  | nil => rfl
  | cons b rest ih =>
    simp only [walkXY]
    split
    · split
      · rfl
      · exact ih ..
    · rw [charAtXY_onto, ih]

theorem printAtXY_onto (x y : Int) (inv : Bool) (bytes : List Byte) (s k : State) :
    printAtXY x y inv bytes (s.onto k) = (printAtXY x y inv bytes s).onto k := by
  unfold printAtXY
  split
  · rfl
  · exact walkXY_onto ..

theorem drawBox_onto (writes : Box → List MaskWrite) (inv : Bool) (b : Box) (s k : State) :
    drawBox writes inv b (s.onto k) = (drawBox writes inv b s).onto k := by
  cases h : b.rejected with
  | true => rw [drawBox_rejected h, drawBox_rejected h]
  | false => simp only [drawBox_eq h, State.onto]

/-- The effect of every command is the same whatever the control state. -/
theorem effect_onto (i : Instr) (bytes : List Byte) (s k : State) :
    effect i bytes (s.onto k) = (effect i bytes s).onto k := by
  cases i <;> simp only [effect]
  case init => rfl
  case setcursor => rfl
  case clear => rfl
  case clearflush => rfl
  case putchar => exact charAtCursor_onto ..
  case printstr inv absent len =>
    cases absent
    · exact printAtCursor_onto ..
    · rfl
  case putcharxy => exact charAtXY_onto ..
  case printstrxy inv absent len x y =>
    cases absent
    · exact printAtXY_onto ..
    · rfl
  case drawrect => exact drawBox_onto ..
  case fillrect => exact drawBox_onto ..
  case measure absent len => cases absent <;> rfl
  case flushall => rfl
  case flushregion => rfl
  case setmode => rfl
  case getb => split <;> rfl
  case setb => rfl
  case orb => rfl
  case andnb => rfl

end Sys2Proof.Machine
end

