-- ==== Sys2Proof/Laws/Draw.lean ====
section
/-! SUPPORT. The pixels a drawing rule applies: one lemma per rule's list of writes (42 R169, 43 R203, R221, R222). -/

namespace Sys2Proof.Machine

/-! ### Masks (43 R203, R204) -/

theorem ones_shiftLeft_bit (n k : Nat) (hk : k < 8) : ((0xFF : Byte) <<< n).getLsbD k = decide (n ≤ k) := by
  rw [BitVec.getLsbD_shiftLeft]
  by_cases h : n ≤ k
  · have : (0xFF : Byte).getLsbD (k - n) = true := by
      have h8 : k - n < 8 := by omega
      generalize k - n = j at h8
      interval_cases j <;> rfl
    simpa [hk, h] using this
  · simp [h]

theorem ones_shiftRight_bit (m k : Nat) (hm : m ≤ 7) :
    ((0xFF : Byte) >>> (7 - m)).getLsbD k = decide (k ≤ m) := by
  rw [BitVec.getLsbD_ushiftRight]
  by_cases h : k ≤ m
  · have : (0xFF : Byte).getLsbD (7 - m + k) = true := by
      have h8 : 7 - m + k < 8 := by omega
      generalize 7 - m + k = j at h8
      interval_cases j <;> rfl
    simpa [h] using this
  · simp only [h, decide_false]
    exact BitVec.getLsbD_of_ge _ _ (by omega)

theorem Box.um_bit (b : Box) (k : Nat) (hk : k < 8) :
    b.um.getLsbD k = decide (0 ≤ b.ys → (b.ys % 8).toNat ≤ k) := by
  unfold Box.um Box.topVis
  by_cases h : b.ys ≥ 0
  · simp only [h, decide_true, if_true, ones_shiftLeft_bit _ _ hk]
    simp
  · have h1 : (0xFF : Byte).getLsbD k = true := by interval_cases k <;> rfl
    simp only [h, decide_false, Bool.false_eq_true, if_false, h1, false_imp_iff, decide_true]

theorem Box.lm_bit (b : Box) (k : Nat) (hk : k < 8) :
    b.lm.getLsbD k = decide (b.ye ≤ 63 → k ≤ (b.ye % 8).toNat) := by
  unfold Box.lm Box.botVis
  by_cases h : b.ye ≤ 63
  · simp only [h, decide_true, if_true, ones_shiftRight_bit _ k (show (b.ye % 8).toNat ≤ 7 by omega)]
    simp
  · have h1 : (0xFF : Byte).getLsbD k = true := by interval_cases k <;> rfl
    simp only [h, decide_false, Bool.false_eq_true, if_false, h1, false_imp_iff, decide_true]

theorem rowBit_bit (y : Int) (k : Nat) (hk : k < 8) : (rowBit y).getLsbD k = decide ((y % 8).toNat = k) := by
  unfold rowBit
  rw [BitVec.getLsbD_shiftLeft]
  by_cases h : (y % 8).toNat = k
  · subst h; simp [hk]
  · by_cases hlt : k < (y % 8).toNat
    · simp [hk, hlt, h]
    · have h1 : (1 : Byte).getLsbD (k - (y % 8).toNat) = false := by
        have h2 : 0 < k - (y % 8).toNat := by omega
        have h3 : k - (y % 8).toNat < 8 := by omega
        generalize k - (y % 8).toNat = j at h2 h3
        interval_cases j <;> rfl
      rw [h1]; simp [h]

theorem MaskWrite.hits_iff (w : MaskWrite) (x y : Int) :
    w.hits x y = true ↔ w.col = x ∧ w.page = y / 8 ∧ w.mask.getLsbD (y % 8).toNat = true := by
  simp [MaskWrite.hits, and_assoc]

theorem Box.rejected_iff (b : Box) : b.rejected = true ↔ b.xe < 0 ∨ 128 ≤ b.xs ∨ b.ye < 0 ∨ 64 ≤ b.ys := by
  simp [Box.rejected, or_assoc]

theorem Box.ps_eq (b : Box) : b.ps = if 0 ≤ b.ys then b.ys / 8 else 0 := by
  simp [Box.ps, Box.topVis]

theorem Box.pe_eq (b : Box) : b.pe = if b.ye ≤ 63 then b.ye / 8 else 7 := by
  simp [Box.pe, Box.botVis]

/-- One full-height column of a rectangle hits, in its own column, the rows of the rectangle (43 R203, R215, R217). -/
theorem columnWrites_hits {b : Box} (hr : b.rejected = false) (hy : b.ys ≤ b.ye) {x y c : Int}
    (hs : 0 ≤ y ∧ y < 64) :
    (columnWrites b c).any (fun w => w.hits x y) = true ↔ c = x ∧ b.ys ≤ y ∧ y ≤ b.ye := by
  have hn : ¬(b.xe < 0 ∨ 128 ≤ b.xs ∨ b.ye < 0 ∨ 64 ≤ b.ys) := by
    rw [← Box.rejected_iff, hr]; simp
  have hk : (y % 8).toNat < 8 := by omega
  have hps := b.ps_eq
  have hpe := b.pe_eq
  unfold columnWrites
  by_cases hp : b.ps = b.pe
  · rw [if_pos hp]
    simp only [List.any_cons, List.any_nil, Bool.or_false, MaskWrite.hits_iff, Box.cm, BitVec.getLsbD_and,
      Bool.and_eq_true, b.um_bit _ hk, b.lm_bit _ hk, decide_eq_true_eq]
    split_ifs at hps hpe <;> omega
  · rw [if_neg hp]
    simp only [List.any_cons, Bool.or_eq_true, MaskWrite.hits_iff, List.any_map, List.any_eq_true,
      Function.comp_apply, mem_span, b.um_bit _ hk, b.lm_bit _ hk, decide_eq_true_eq]
    have h1 : (0xFF : Byte).getLsbD (y % 8).toNat = true := by
      generalize (y % 8).toNat = k at hk
      interval_cases k <;> rfl
    simp only [h1, and_true]
    constructor
    · rintro (h | h | ⟨p, h, h'⟩) <;> split_ifs at hps hpe <;> omega
    · rintro ⟨h0, h2, h3⟩
      by_cases e1 : b.ps = y / 8
      · exact .inl ⟨h0, e1, by split_ifs at hps hpe <;> omega⟩
      · by_cases e2 : b.pe = y / 8
        · exact .inr (.inl ⟨h0, e2, by split_ifs at hps hpe <;> omega⟩)
        · exact .inr (.inr ⟨y / 8, by split_ifs at hps hpe <;> omega, h0, rfl⟩)

theorem any_flatMap_iff {α : Type} {l : List α} {f : α → List MaskWrite} {q : MaskWrite → Bool} :
    (l.flatMap f).any q = true ↔ ∃ c ∈ l, (f c).any q = true := by
  rw [List.any_flatMap, List.any_eq_true]

/-- The writes of FILLRECT hit the pixels of the rectangle (43 R221). -/
theorem fillWrites_hits {b : Box} (hr : b.rejected = false) (hy : b.ys ≤ b.ye) {x y : Int}
    (hx : 0 ≤ x ∧ x < 128) (hs : 0 ≤ y ∧ y < 64) :
    (fillWrites b).any (fun w => w.hits x y) = true ↔ b.xs ≤ x ∧ x ≤ b.xe ∧ b.ys ≤ y ∧ y ≤ b.ye := by
  simp only [fillWrites, any_flatMap_iff, columnWrites_hits hr hy hs, mem_span, Box.cs, Box.ce]
  constructor
  · rintro ⟨c, h, rfl, h'⟩; omega
  · intro h; exact ⟨x, by omega, rfl, by omega⟩

theorem edgeColumn_hits {b : Box} (hr : b.rejected = false) (hy : b.ys ≤ b.ye) {x y c : Int}
    (hs : 0 ≤ y ∧ y < 64) :
    (edgeColumn b c).any (fun w => w.hits x y) = true ↔ c = x ∧ (y = b.ys ∨ y = b.ye) := by
  have hn : ¬(b.xe < 0 ∨ 128 ≤ b.xs ∨ b.ye < 0 ∨ 64 ≤ b.ys) := by
    rw [← Box.rejected_iff, hr]; simp
  have hk : (y % 8).toNat < 8 := by omega
  have hps := b.ps_eq
  have hpe := b.pe_eq
  unfold edgeColumn Box.topVis Box.botVis
  rw [List.any_append, Bool.or_eq_true]
  by_cases ht : b.ys ≥ 0 <;> by_cases hb : b.ye ≤ 63 <;>
    simp only [ht, hb, decide_true, decide_false, Bool.false_eq_true, if_true, if_false, List.any_cons, List.any_nil,
      Bool.or_false, MaskWrite.hits_iff, rowBit_bit _ _ hk, decide_eq_true_eq, or_false, false_or, false_iff] <;>
    split_ifs at hps hpe <;> omega

/-- The writes of DRAWRECT hit the pixels of the rectangle's border (43 R222). -/
theorem outlineWrites_hits {b : Box} (hr : b.rejected = false) (hx' : b.xs ≤ b.xe) (hy : b.ys ≤ b.ye) {x y : Int}
    (hx : 0 ≤ x ∧ x < 128) (hs : 0 ≤ y ∧ y < 64) :
    (outlineWrites b).any (fun w => w.hits x y) = true ↔
      (b.xs ≤ x ∧ x ≤ b.xe ∧ b.ys ≤ y ∧ y ≤ b.ye) ∧ (x = b.xs ∨ x = b.xe ∨ y = b.ys ∨ y = b.ye) := by
  have hl : ∀ (v : Bool) (c : Int),
      (if v then columnWrites b c else []).any (fun w => w.hits x y) = true ↔
        v = true ∧ c = x ∧ b.ys ≤ y ∧ y ≤ b.ye := by
    intro v c
    cases v
    · simp
    · simpa using columnWrites_hits hr hy hs
  rw [outlineWrites, List.any_append, List.any_append, Bool.or_eq_true, Bool.or_eq_true, hl, hl]
  simp only [any_flatMap_iff, edgeColumn_hits hr hy hs, mem_span, Box.leftVis, Box.rightVis, decide_eq_true_eq]
  constructor
  · rintro (⟨c, h, rfl, h'⟩ | h | h) <;> omega
  · rintro ⟨h, h'⟩
    by_cases e1 : x = b.xs
    · exact .inr (.inl (by omega))
    · by_cases e2 : x = b.xe
      · exact .inr (.inr (by omega))
      · exact .inl ⟨x, by omega, rfl, by omega⟩

theorem boxOf_ordered (x0 y0 x1 y1 : Half) :
    (boxOf x0 y0 x1 y1).xs ≤ (boxOf x0 y0 x1 y1).xe ∧ (boxOf x0 y0 x1 y1).ys ≤ (boxOf x0 y0 x1 y1).ye := by
  simp only [boxOf]; omega

/-! ### Glyphs (42 R164 to R169) -/

theorem glyphSlot_eq_none {ch : Byte} : glyphSlot ch = none ↔ ch.toNat < 0x20 ∨ 0x7F < ch.toNat := by
  unfold glyphSlot
  split
  · simp; omega
  · simp; omega

/-- A printable character has its own slot (20_memory R64). -/
theorem glyphSlot_eq_some {ch : Byte} {g : Fin 96} :
    glyphSlot ch = some g ↔ 0x20 ≤ ch.toNat ∧ ch.toNat ≤ 0x7F ∧ g.val = ch.toNat - 0x20 := by
  unfold glyphSlot
  split
  · next h => rw [Option.some_inj, Fin.ext_iff]; exact ⟨fun e => ⟨h.1, h.2, e.symm⟩, fun e => e.2.2.symm⟩
  · next h => exact ⟨fun e => absurd e (by simp), fun e => absurd ⟨e.1, e.2.1⟩ h⟩

/-- A glyph byte is the byte of the font port at its address (20_memory R63). -/
theorem glyph_of_font {p : Params} {g : Fin 96} {i : Nat} {v : Byte} (h : p.font[g.val * 5 + i]? = some v) :
    glyph p g i = v := by
  rw [glyph, List.getD_eq_getElem?_getD, h]; rfl

/-- A bit of a glyph byte is a bit of the font port's byte at its address (20_memory R62, R63). -/
theorem glyph_bit_iff (p : Params) (g : Fin 96) (i r : Nat) :
    (glyph p g i).getLsbD r = true ↔ ∃ v : Byte, p.font[g.val * 5 + i]? = some v ∧ v.getLsbD r = true := by
  rw [glyph, List.getD_eq_getElem?_getD]
  cases p.font[g.val * 5 + i]? <;> simp

theorem offCanvas_iff {x y : Int} : offCanvas x y = true ↔ x ≤ -5 ∨ 133 ≤ x ∨ y ≤ -8 ∨ 72 ≤ y := by
  simp [offCanvas, or_assoc]

theorem mem_takeWhile_lt (x : Int) (i : Nat) :
    i ∈ (List.range 5).takeWhile (fun i : Nat => decide (x + (i : Int) < 128)) ↔ i < 5 ∧ x + (i : Int) < 128 := by
  constructor
  · intro h
    exact ⟨List.mem_range.1 ((List.takeWhile_sublist _).subset h), by simpa using List.mem_takeWhile_imp h⟩
  · rintro ⟨h5, h⟩
    have hsplit : List.range 5 = List.range (i + 1) ++ List.range' (i + 1) (4 - i) := by
      interval_cases i <;> rfl
    rw [hsplit, List.takeWhile_append_of_pos]
    · exact List.mem_append_left _ (List.mem_range.2 (Nat.lt_succ_self i))
    · intro j hj
      have := List.mem_range.1 hj
      simp only [decide_eq_true_eq]
      omega

/-- The writes of a glyph at the cursor (41 R141). -/
theorem mem_cursorWrites {p : Params} {g : Fin 96} {col page : Int} {w : MaskWrite} :
    w ∈ cursorWrites p g col page ↔
      ∃ i : Nat, i < 5 ∧ col + (i : Int) < 128 ∧ w = { col := col + (i : Int), page := page, mask := glyph p g i } := by
  simp only [cursorWrites, List.mem_map, mem_takeWhile_lt]
  constructor
  · rintro ⟨i, ⟨h1, h2⟩, rfl⟩; exact ⟨i, h1, h2, rfl⟩
  · rintro ⟨i, h1, h2, rfl⟩; exact ⟨i, ⟨h1, h2⟩, rfl⟩

/-- The writes of a glyph in the page-aligned regime hit its pixels (42 R164). -/
theorem alignedWrites_hits {p : Params} {g : Fin 96} {x pu px py : Int} (hx : 0 ≤ px ∧ px < 128) :
    (alignedWrites p g x pu).any (fun w => w.hits px py) = true ↔
      0 ≤ px - x ∧ px - x ≤ 4 ∧ pu = py / 8 ∧ (glyph p g (px - x).toNat).getLsbD (py % 8).toNat = true := by
  simp only [alignedWrites, List.any_map, List.any_eq_true, List.mem_filter, mem_takeWhile_lt, Function.comp_apply,
    MaskWrite.hits_iff, decide_eq_true_eq]
  constructor
  · rintro ⟨i, h, h1, h2, h3⟩
    have : (px - x).toNat = i := by omega
    rw [this]
    exact ⟨by omega, by omega, h2, h3⟩
  · rintro ⟨h1, h2, h3, h4⟩
    exact ⟨(px - x).toNat, by omega, by omega, h3, h4⟩

/-- The writes of a glyph in the page-crossing regime: the upper page's bit r - s, the lower page's bit r + 8 - s of the glyph
byte (42 R165 to R167). -/
theorem splitWrites_hits {p : Params} {g : Fin 96} {x pu px py : Int} {s : Nat} (h0 : 0 ≤ py) :
    (splitWrites p g x pu s).any (fun w => w.hits px py) = true ↔
      0 ≤ px - x ∧ px - x ≤ 4 ∧
        ((pu = py / 8 ∧ s ≤ (py % 8).toNat ∧ (glyph p g (px - x).toNat).getLsbD ((py % 8).toNat - s) = true) ∨
          (pu + 1 = py / 8 ∧ pu + 1 < (p.lowerSuppressFrom : Int) ∧
            (glyph p g (px - x).toNat).getLsbD (8 - s + (py % 8).toNat) = true)) := by
  have hk : (py % 8).toNat < 8 := by omega
  have hcol : ∀ i : Nat, (splitColumn p g x pu s i).any (fun w => w.hits px py) = true ↔
      x + (i : Int) = px ∧
        ((pu = py / 8 ∧ s ≤ (py % 8).toNat ∧ (glyph p g i).getLsbD ((py % 8).toNat - s) = true) ∨
          (pu + 1 = py / 8 ∧ pu + 1 < (p.lowerSuppressFrom : Int) ∧
            (glyph p g i).getLsbD (8 - s + (py % 8).toNat) = true)) := by
    intro i
    have hu : ((glyph p g i <<< s).getLsbD (py % 8).toNat = true) ↔
        s ≤ (py % 8).toNat ∧ (glyph p g i).getLsbD ((py % 8).toNat - s) = true := by
      rw [BitVec.getLsbD_shiftLeft]
      simp [hk]
    have hl : (glyph p g i >>> (8 - s)).getLsbD (py % 8).toNat =
        (glyph p g i).getLsbD (8 - s + (py % 8).toNat) := BitVec.getLsbD_ushiftRight ..
    simp only [splitColumn]
    rw [List.any_append, Bool.or_eq_true]
    by_cases c1 : 0 ≤ pu <;> by_cases c2 : pu + 1 < (p.lowerSuppressFrom : Int) <;>
      simp only [c1, c2, if_true, if_false, List.any_cons, List.any_nil, Bool.or_false, Bool.false_eq_true,
        MaskWrite.hits_iff, hu, hl, or_false, false_or, false_and, and_false, true_and]
    · tauto
    · have : pu ≠ py / 8 := by omega
      tauto
    · have : pu ≠ py / 8 := by omega
      tauto
  simp only [splitWrites, any_flatMap_iff, hcol, List.mem_range]
  constructor
  · rintro ⟨i, h, h1, h2⟩
    have : (px - x).toNat = i := by omega
    rw [this]
    exact ⟨by omega, by omega, h2⟩
  · rintro ⟨h1, h2, h3⟩
    exact ⟨(px - x).toNat, by omega, by omega, h3⟩

end Sys2Proof.Machine
end

