-- ==== Sys2Proof/Laws/Encoding.lean ====
section
/-! SUPPORT. The laws of the frame's fields: a frame is its six fields, masks act field by field, and each field is read back. -/

namespace Sys2Proof

/-- A frame bit by bit (30_encoding R81). -/
theorem frame_bit (op flags : Byte) (a b c d : Half) (k : Nat) :
    (frame op flags a b c d).getLsbD k =
      if k < 16 then d.getLsbD k
      else if k < 32 then c.getLsbD (k - 16)
      else if k < 48 then b.getLsbD (k - 32)
      else if k < 64 then a.getLsbD (k - 48)
      else if k < 72 then flags.getLsbD (k - 64)
      else op.getLsbD (k - 72) := by
  unfold frame
  simp only [BitVec.getLsbD_append]
  split_ifs <;> first | omega | rfl

theorem opField_frame (op flags : Byte) (a b c d : Half) : opField (frame op flags a b c d) = op := by
  refine BitVec.eq_of_getLsbD_eq fun k hk => ?_
  rw [opField, BitVec.getLsbD_extractLsb', frame_bit]
  split_ifs <;> first | omega | simp [hk]

theorem flagsField_frame (op flags : Byte) (a b c d : Half) : flagsField (frame op flags a b c d) = flags := by
  refine BitVec.eq_of_getLsbD_eq fun k hk => ?_
  rw [flagsField, BitVec.getLsbD_extractLsb', frame_bit]
  split_ifs <;> first | omega | simp [hk]

theorem aField_frame (op flags : Byte) (a b c d : Half) : aField (frame op flags a b c d) = a := by
  refine BitVec.eq_of_getLsbD_eq fun k hk => ?_
  rw [aField, BitVec.getLsbD_extractLsb', frame_bit]
  split_ifs <;> first | omega | simp [hk]

theorem bField_frame (op flags : Byte) (a b c d : Half) : bField (frame op flags a b c d) = b := by
  refine BitVec.eq_of_getLsbD_eq fun k hk => ?_
  rw [bField, BitVec.getLsbD_extractLsb', frame_bit]
  split_ifs <;> first | omega | simp [hk]

theorem cField_frame (op flags : Byte) (a b c d : Half) : cField (frame op flags a b c d) = c := by
  refine BitVec.eq_of_getLsbD_eq fun k hk => ?_
  rw [cField, BitVec.getLsbD_extractLsb', frame_bit]
  split_ifs <;> first | omega | simp [hk]

theorem dField_frame (op flags : Byte) (a b c d : Half) : dField (frame op flags a b c d) = d := by
  refine BitVec.eq_of_getLsbD_eq fun k hk => ?_
  rw [dField, BitVec.getLsbD_extractLsb', frame_bit]
  split_ifs <;> first | omega | simp [hk]

/-- A frame is the frame of its fields (30_encoding R81). -/
theorem frame_eta (f : Frame) :
    frame (opField f) (flagsField f) (aField f) (bField f) (cField f) (dField f) = f := by
  refine BitVec.eq_of_getLsbD_eq fun k hk => ?_
  rw [frame_bit, opField, flagsField, aField, bField, cField, dField]
  simp only [BitVec.getLsbD_extractLsb']
  split_ifs with h1 h2 h3 h4 h5
  · rw [decide_eq_true h1, Bool.true_and, Nat.zero_add]
  · rw [decide_eq_true (by omega), Bool.true_and, Nat.add_sub_cancel' (by omega)]
  · rw [decide_eq_true (by omega), Bool.true_and, Nat.add_sub_cancel' (by omega)]
  · rw [decide_eq_true (by omega), Bool.true_and, Nat.add_sub_cancel' (by omega)]
  · rw [decide_eq_true (by omega), Bool.true_and, Nat.add_sub_cancel' (by omega)]
  · rw [decide_eq_true (by omega), Bool.true_and, Nat.add_sub_cancel' (by omega)]

/-- A mask acts field by field. -/
theorem frame_and (op flags : Byte) (a b c d : Half) (op' flags' : Byte) (a' b' c' d' : Half) :
    frame op flags a b c d &&& frame op' flags' a' b' c' d' =
      frame (op &&& op') (flags &&& flags') (a &&& a') (b &&& b') (c &&& c') (d &&& d') := by
  refine BitVec.eq_of_getLsbD_eq fun k hk => ?_
  rw [BitVec.getLsbD_and, frame_bit, frame_bit, frame_bit]
  split_ifs <;> simp only [BitVec.getLsbD_and]

/-- Two frames are equal iff their fields are. -/
theorem frame_inj {op flags : Byte} {a b c d : Half} {op' flags' : Byte} {a' b' c' d' : Half} :
    frame op flags a b c d = frame op' flags' a' b' c' d' ↔
      op = op' ∧ flags = flags' ∧ a = a' ∧ b = b' ∧ c = c' ∧ d = d' := by
  constructor
  · intro h
    exact ⟨by simpa only [opField_frame] using congrArg opField h,
      by simpa only [flagsField_frame] using congrArg flagsField h,
      by simpa only [aField_frame] using congrArg aField h,
      by simpa only [bField_frame] using congrArg bField h,
      by simpa only [cField_frame] using congrArg cField h,
      by simpa only [dField_frame] using congrArg dField h⟩
  · rintro ⟨rfl, rfl, rfl, rfl, rfl, rfl⟩; rfl

theorem flagsOf_inv (inv absent auto : Bool) : (flagsOf inv absent auto).getLsbD 0 = inv := by
  cases inv <;> cases absent <;> cases auto <;> rfl

theorem flagsOf_absent (inv absent auto : Bool) : (flagsOf inv absent auto).getLsbD 1 = absent := by
  cases inv <;> cases absent <;> cases auto <;> rfl

theorem flagsOf_auto (inv absent auto : Bool) : (flagsOf inv absent auto).getLsbD 2 = auto := by
  cases inv <;> cases absent <;> cases auto <;> rfl

/-- C[7:0] of a field C that uses only those bits is what was put there. -/
theorem lowOnly_low (v : Byte) : (lowOnly v).extractLsb' 0 8 = v := by
  refine BitVec.eq_of_getLsbD_eq fun k hk => ?_
  rw [lowOnly, BitVec.getLsbD_extractLsb', BitVec.getLsbD_append]
  simp [hk]

/-- A field C whose high byte is 0 is its low byte alone. -/
theorem lowOnly_of_high_zero {c : Half} (h : c &&& 0xFF00 = 0) : lowOnly (c.extractLsb' 0 8) = c := by
  refine BitVec.eq_of_getLsbD_eq fun k hk => ?_
  have hb : (c &&& 0xFF00).getLsbD k = false := by rw [h]; simp
  rw [lowOnly, BitVec.getLsbD_append, BitVec.getLsbD_extractLsb']
  split_ifs with h8
  · simp [h8]
  · have hm : (0xFF00 : Half).getLsbD k = true := by
      interval_cases k <;> rfl
    rw [BitVec.getLsbD_and, hm, Bool.and_true] at hb
    rw [hb]; simp

/-- FLAGS whose bits 7:3 are 0 are their three low bits. -/
theorem flagsOf_of_high_zero {v : Byte} (h : v &&& 0xF8 = 0) :
    flagsOf (v.getLsbD 0) (v.getLsbD 1) (v.getLsbD 2) = v := by
  revert h; revert v; decide

/-- A field C that uses only its low byte has a high byte of 0. -/
theorem lowOnly_mask (v : Byte) : lowOnly v &&& 0xFF00 = 0 := by
  revert v; decide

/-! ### The opcode map -/

/-- A row of the opcode map is found by its own OP byte. -/
theorem rowOf_of_mem {r : EncodingRow} (h : r ∈ encodingTable) : rowOf r.opcode = some r := by
  fin_cases h <;> rfl

/-- What the map finds is one of its rows, with the OP byte asked for. -/
theorem mem_of_rowOf {r : EncodingRow} {op : Byte} (h : rowOf op = some r) : r ∈ encodingTable ∧ r.opcode = op :=
  ⟨List.mem_of_find?_eq_some h, by simpa using List.find?_some h⟩

/-- A frame matches a pattern under a mask iff each of its fields does. -/
theorem and_eq_iff_fields (f m p : Frame) :
    f &&& m = p ↔
      opField f &&& opField m = opField p ∧ flagsField f &&& flagsField m = flagsField p ∧
        aField f &&& aField m = aField p ∧ bField f &&& bField m = bField p ∧ cField f &&& cField m = cField p ∧
        dField f &&& dField m = dField p := by
  conv_lhs => rw [← frame_eta f, ← frame_eta m, ← frame_eta p, frame_and]
  exact frame_inj

/-- Every row's mask covers the OP byte, so a frame that matches a row has the row's OP. -/
theorem opField_of_match {r : EncodingRow} (hr : r ∈ encodingTable) {f : Frame} (h : f &&& r.mask = r.pattern) :
    opField f = r.opcode := by
  have h1 := ((and_eq_iff_fields ..).1 h).1
  have h2 : ∀ r ∈ encodingTable, opField r.mask = 0xFF ∧ opField r.pattern = r.opcode := by
    intro r hr; fin_cases hr <;> exact ⟨by decide, by decide⟩
  rw [(h2 r hr).1, (h2 r hr).2] at h1
  rw [← h1]
  generalize opField f = o
  revert o; decide

/-- A frame made of fields decodes through the row its OP selects. -/
theorem decode_frame {op : Byte} {r : EncodingRow} (h : rowOf op = some r) (flags : Byte) (a b c d : Half) :
    decode (frame op flags a b c d) = r.read (frame op flags a b c d) := by
  simp only [decode, opField_frame, h]

/-- What a row reads from a frame made of fields, its mask and pattern given field by field. -/
theorem EncodingRow.read_frame {r : EncodingRow} {op flags : Byte} {a b c d : Half} {mo mf po : Byte}
    {ma mb mc md : Half} (hm : r.mask = frame mo mf ma mb mc md) (hp : r.pattern = frame po 0 0 0 0 0)
    (h : op &&& mo = po ∧ flags &&& mf = 0 ∧ a &&& ma = 0 ∧ b &&& mb = 0 ∧ c &&& mc = 0 ∧ d &&& md = 0)
    (hc : (r.counted && flags.getLsbD 1 && c.extractLsb' 0 8 != 0) = false) :
    r.read (frame op flags a b c d) = .ok (r.build (frame op flags a b c d)) := by
  unfold EncodingRow.read
  rw [hm, hp, frame_and, if_pos (frame_inj.2 h)]
  simp only [absentBit, lowField, flagsField_frame, cField_frame, hc]
  rfl

end Sys2Proof
end

