-- ==== Sys2Proof/Laws/PerInstr.lean ====
section
/-! SUPPORT. One family of statements per instruction, about the instruction as syntax: the OP byte of its frame
(30_encoding R81, R90). -/

namespace Sys2Proof.Laws.EncodedOp

/-- The frame of an instruction carries its OP byte in bits 79 to 72, and that byte selects a row of the opcode map whose own OP it
is (30_encoding R81, R90). -/
def Statement (i : Instr) : Prop :=
  opField (encode i) = opcode i ∧ (rowOf (opcode i)).map (fun r => r.opcode) = some (opcode i)

theorem init : Statement .init := ⟨opField_frame .., rfl⟩
theorem setcursor (col page : Half) : Statement (.setcursor col page) := ⟨opField_frame .., rfl⟩
theorem clear : Statement .clear := ⟨opField_frame .., rfl⟩
theorem clearflush : Statement .clearflush := ⟨opField_frame .., rfl⟩
theorem putchar (inv : Bool) (ch : Byte) : Statement (.putchar inv ch) := ⟨opField_frame .., rfl⟩
theorem printstr (inv absent : Bool) (len : Byte) : Statement (.printstr inv absent len) := ⟨opField_frame .., rfl⟩
theorem putcharxy (inv : Bool) (ch : Byte) (x y : Half) : Statement (.putcharxy inv ch x y) := ⟨opField_frame .., rfl⟩
theorem printstrxy (inv absent : Bool) (len : Byte) (x y : Half) : Statement (.printstrxy inv absent len x y) := ⟨opField_frame .., rfl⟩
theorem drawrect (inv : Bool) (x0 y0 x1 y1 : Half) : Statement (.drawrect inv x0 y0 x1 y1) := ⟨opField_frame .., rfl⟩
theorem fillrect (inv : Bool) (x0 y0 x1 y1 : Half) : Statement (.fillrect inv x0 y0 x1 y1) := ⟨opField_frame .., rfl⟩
theorem measure (absent : Bool) (len : Byte) : Statement (.measure absent len) := ⟨opField_frame .., rfl⟩
theorem flushall : Statement .flushall := ⟨opField_frame .., rfl⟩
theorem flushregion (c0 p0 c1 p1 : Half) : Statement (.flushregion c0 p0 c1 p1) := ⟨opField_frame .., rfl⟩
theorem setmode (auto : Bool) : Statement (.setmode auto) := ⟨opField_frame .., rfl⟩
theorem getb (col page : Half) : Statement (.getb col page) := ⟨opField_frame .., rfl⟩
theorem setb (col page : Half) (v : Byte) : Statement (.setb col page v) := ⟨opField_frame .., rfl⟩
theorem orb (col page : Half) (m : Byte) : Statement (.orb col page m) := ⟨opField_frame .., rfl⟩
theorem andnb (col page : Half) (m : Byte) : Statement (.andnb col page m) := ⟨opField_frame .., rfl⟩

end Sys2Proof.Laws.EncodedOp
end

