-- ==== Sys2Proof/Laws/Step.lean ====
section
/-! SUPPORT. Everything one step can do, said once. -/

namespace Sys2Proof.Machine

/-- A reset that arrives inside a command is a reset of a state with the same parameters, reset count and transport. -/
theorem resetInCommand_eq (s : State) :
    ∃ k : State, resetInCommand s = hardwareReset k ∧ k.params = s.params ∧ k.resets = s.resets ∧
      k.stalled = s.stalled := by
  unfold resetInCommand
  split
  · exact ⟨s, rfl, rfl, rfl, rfl⟩
  · split
    · exact ⟨s, rfl, rfl, rfl, rfl⟩
    · split
      · exact ⟨_, rfl, rfl, rfl, rfl⟩
      · exact ⟨_, rfl, rfl, rfl, rfl⟩

/-- The inversion of `step`: a next state comes from a reset, from idling, from an illegal frame, or from a command. -/
theorem step_cases {s t : State} (h : step s = .next t) :
    (s.rst = .high ∧ t = hardwareReset s) ∨
    (s.rst = .inCommand ∧ t = resetInCommand s) ∨
    (s.rst = .low ∧ s.fault = false ∧ s.busy = false ∧
      ((s.cmd = [] ∧ t = s) ∨
        ∃ f rest, s.cmd = f :: rest ∧
          ((∃ e, decode f = .error e ∧ t = raiseIllegalCommand (accept rest s)) ∨
            ∃ i, decode f = .ok i ∧ exec i (accept rest s) = .next t))) := by
  unfold step fetch at h
  cases hr : s.rst <;> simp only [hr] at h
  case high => exact .inl ⟨rfl, (Host.Outcome.next.inj h).symm⟩
  case inCommand => exact .inr (.inl ⟨rfl, (Host.Outcome.next.inj h).symm⟩)
  case low =>
    refine .inr (.inr ⟨rfl, ?_⟩)
    cases hf : s.fault
    · cases hb : s.busy
      · refine ⟨rfl, rfl, ?_⟩
        simp only [hf, hb, Bool.false_eq_true, if_false] at h
        cases hc : s.cmd with
        | nil => simp only [hc] at h; exact .inl ⟨rfl, (Host.Outcome.next.inj h).symm⟩
        | cons f rest =>
          simp only [hc, fetchFrame] at h
          refine .inr ⟨f, rest, rfl, ?_⟩
          cases hd : decode f with
          | error e => simp only [hd] at h; exact .inl ⟨e, rfl, (Host.Outcome.next.inj h).symm⟩
          | ok i => simp only [hd] at h; exact .inr ⟨i, rfl, h⟩
      · simp [hf, hb] at h
    · simp [hf] at h

end Sys2Proof.Machine
end

