-- ==== Sys2Proof/Tests/Slice0.lean ====
section
/-! SUPPORT. The model's own tests: the checks of WellFormed, one frame of each command decoded, one step on each command with the
results of 95_test_vectors, and for every statement with hypotheses a state and operands that meet them. -/

namespace Sys2Proof.Tests

open Sys2Proof.Machine

/-! ### The state the vectors start from (95_test_vectors, conventions and section 2) -/

/-- The fixture font: byte a of the font port is a + 1 modulo 256 (95_test_vectors section 2). -/
def fontT : List Byte := (List.range 480).map fun a => BitVec.ofNat 8 (a + 1)

/-- A clear buffer, the cursor at (0, 0), the fixture font. -/
def clear (auto : Bool) : State where
  params := { font := fontT, autoDefault := false, lowerSuppressFrom := 7, txTimeout := 0 }
  fb := []
  curCol := 0
  curPage := 0
  auto := auto
  measW := 0
  measH := 0
  rdata := 0
  fault := false
  busy := false
  cmd := []
  str := []
  history := []
  past := []
  rst := .low
  stalled := false
  resets := 0

/-- One step with this frame and payload presented. -/
def after {α : Type} (s : State) (f : Frame) (payload : List Byte) (look : State → α) : Option α :=
  match step { s with cmd := [f], str := payload } with
  | .next t => some (look t)
  | .fault _ => none
  | .refused _ => none

/-- The bytes of columns c, c + 1, ... of a page. -/
def row (page c n : Nat) (s : State) : List Byte := (List.range n).map fun k => s.fb.read (page * 128 + c + k)

/-- A byte in every cell of columns c0 to c1 of a page. -/
def filled (page c0 n : Nat) (v : Byte) : Memory := (List.range n).map fun k => (page * 128 + c0 + k, v)

/-! ### WellFormed (30_encoding R101) -/

theorem test_wellFormed_absent_printstr : ¬WellFormed (.printstr false true 2) := by decide
theorem test_wellFormed_absent_printstrxy : ¬WellFormed (.printstrxy true true 1 0 0) := by decide
theorem test_wellFormed_absent_measure : ¬WellFormed (.measure true 0xFF) := by decide
theorem test_wellFormed_empty_string : WellFormed (.printstr true false 0) ∧ WellFormed (.measure true 0) := by decide

/-! ### Frames written out from the tables of 30_encoding: OP, FLAGS, A, B, C, D -/

theorem test_decode_init : decode (0x01#8 ++ 0x00#8 ++ 0#16 ++ 0#16 ++ 0#16 ++ 0#16) = .ok .init := rfl
theorem test_decode_setcursor : decode 0x020000C8FFFE00000000 = .ok (.setcursor 200 (-2)) := rfl
theorem test_decode_clear : decode 0x03000000000000000000 = .ok .clear := rfl
theorem test_decode_clearflush : decode 0x04000000000000000000 = .ok .clearflush := rfl
theorem test_decode_putchar :
    decode (0x05#8 ++ 0b00000001#8 ++ 0#16 ++ 0#16 ++ (0#8 ++ 0x41#8) ++ 0#16) = .ok (.putchar true 0x41) := rfl
theorem test_decode_printstr :
    decode (0x06#8 ++ 0b00000010#8 ++ 0#16 ++ 0#16 ++ (0#8 ++ 0#8) ++ 0#16) = .ok (.printstr false true 0) := rfl
theorem test_decode_putcharxy : decode 0x0701FFFE000500410000 = .ok (.putcharxy true 0x41 (-2) 5) := rfl
theorem test_decode_printstrxy : decode 0x0800000A000000040000 = .ok (.printstrxy false false 4 10 0) := rfl
theorem test_decode_drawrect : decode 0x0901000A000A0014001E = .ok (.drawrect true 10 10 20 30) := rfl
theorem test_decode_fillrect : decode 0x0A00FFF6FFF600C800C8 = .ok (.fillrect false (-10) (-10) 200 200) := rfl
theorem test_decode_measure : decode 0x0B000000000000040000 = .ok (.measure false 4) := rfl
theorem test_decode_flushall : decode 0x0C000000000000000000 = .ok .flushall := rfl
theorem test_decode_flushregion :
    decode (0x0D#8 ++ 0#8 ++ 0xFFFD#16 ++ 6#16 ++ 200#16 ++ 9#16) = .ok (.flushregion (-3) 6 200 9) := rfl
theorem test_decode_setmode :
    decode (0x0E#8 ++ 0b00000100#8 ++ 0#16 ++ 0#16 ++ 0#16 ++ 0#16) = .ok (.setmode true) := rfl
theorem test_decode_getb : decode 0x10000005000200000000 = .ok (.getb 5 2) := rfl
theorem test_decode_setb :
    decode (0x11#8 ++ 0#8 ++ 5#16 ++ 2#16 ++ (0#8 ++ 0x81#8) ++ 0#16) = .ok (.setb 5 2 0x81) := rfl
theorem test_decode_orb : decode 0x12000003000000100000 = .ok (.orb 3 0 0x10) := rfl
theorem test_decode_andnb : decode 0x130000030000000F0000 = .ok (.andnb 3 0 0x0F) := rfl

/-- 95_test_vectors I1 to I8, V25, M13, L12, S13. -/
theorem test_decode_illegal :
    decode 0x00000000000000000000 = .error .unassignedOpcode ∧
    decode 0x0F000000000000000000 = .error .unassignedOpcode ∧
    decode 0x14000000000000000000 = .error .unassignedOpcode ∧
    decode 0x03000000000000000001 = .error .reservedBits ∧
    decode 0x05080000000000410000 = .error .reservedBits ∧
    decode 0x05000001000000410000 = .error .reservedBits ∧
    decode 0x0E010000000000000000 = .error .reservedBits ∧
    decode 0x02000000000000010000 = .error .reservedBits ∧
    decode 0x06020000000000020000 = .error .absentWithLength ∧
    decode 0x0B010000000000000000 = .error .reservedBits ∧
    decode 0x0D010000000000000000 = .error .reservedBits ∧
    decode 0x11000005000201810000 = .error .reservedBits :=
  ⟨rfl, rfl, rfl, rfl, rfl, rfl, rfl, rfl, rfl, rfl, rfl, rfl⟩

/-- 30_encoding R81: most significant byte first. -/
theorem test_link_bytes :
    frameToBytes 0x0200000A000300000000 = [0x02, 0, 0, 0x0A, 0, 0x03, 0, 0, 0, 0] ∧
    decodeBytes [0x02, 0, 0, 0x0A, 0, 0x03, 0, 0, 0, 0, 0x55] = .ok (.setcursor 10 3, [0x55]) := ⟨rfl, rfl⟩

/-! ### One step of each command (95_test_vectors, the vector named in the test) -/

/-- L11. -/
theorem test_init :
    after { clear true with fb := [(3, 0xFF)], curCol := 7 } 0x01000000000000000000 []
      (fun t => (t.fb, t.curCol, t.auto)) = some ([], 0, false) ∧
    after { clear true with rdata := 1, measW := 6 } 0x01000000000000000000 []
      (fun t => (t.rdata, t.measW, t.history)) = some (0, 0, []) := by decide

/-- V18. -/
theorem test_setcursor :
    after (clear true) 0x020000C8FFFE00000000 [] (fun t => (t.curCol, t.curPage, t.history)) = some (200, -2, []) := by
  decide

/-- S12. -/
theorem test_clear :
    after { clear true with fb := [(3, 0xFF)], curCol := 7, curPage := 3 } 0x03000000000000000000 []
      (fun t => (t.fb, t.curCol, t.curPage, t.history)) = some ([], 7, 3, []) := by decide

/-- L8. -/
theorem test_clearflush :
    after { clear false with fb := [(3, 0xFF)] } 0x04000000000000000000 []
      (fun t => (t.fb, t.history.length, t.history[14]?, t.history[15]?)) =
      some ([], 16, some (.addr 0 7), some (.data (List.replicate 128 0))) := by decide +kernel

/-- V2. -/
theorem test_putchar_right_edge :
    after { clear true with curCol := 124 } 0x05000000000000410000 []
      (fun t => (t.fb, t.curCol, t.history)) =
      some ([(124, 0xA6), (125, 0xA7), (126, 0xA8), (127, 0xA9)], 130,
        [.addr 124 0, .data [0xA6, 0xA7, 0xA8, 0xA9]]) := by decide +kernel

/-- V6 and V11: a glyph that enters from the left, and the wrap of CUR_COL. -/
theorem test_putchar_left_edge_and_wrap :
    after { clear true with curCol := -2, curPage := 1 } 0x05000000000000410000 []
      (fun t => (t.fb, t.curCol)) = some ([(128, 0xA8), (129, 0xA9), (130, 0xAA)], 4) ∧
    after { clear true with curCol := 32762 } 0x05000000000000410000 []
      (fun t => (t.fb, t.curCol, t.history)) = some ([], -32768, []) := by decide +kernel

/-- V20. -/
theorem test_printstr_runs_off :
    after { clear true with curCol := 118, curPage := 1 } 0x06000000000000030000 [0x41, 0x42, 0x43]
      (fun t => (t.curCol, t.str, t.history)) =
      some (136, [], [.addr 118 1, .data [0xA6, 0xA7, 0xA8, 0xA9, 0xAA], .addr 124 1, .data [0xAB, 0xAC, 0xAD, 0xAE]]) := by
  decide +kernel

/-- V21: a line feed is drawn as the space glyph. -/
theorem test_printstr_line_feed :
    after (clear false) 0x06000000000000030000 [0x41, 0x0A, 0x42] (fun t => (row 0 5 8 t, t.curCol, t.curPage)) =
      some ([0, 0x01, 0x02, 0x03, 0x04, 0x05, 0, 0xAB], 18, 0) := by decide +kernel

/-- X10. -/
theorem test_putcharxy_split :
    after (clear true) 0x0700FFFE000500410000 [] (fun t => (row 0 0 4 t, row 1 0 4 t, t.history)) =
      some ([0x00, 0x20, 0x40, 0], [0x15, 0x15, 0x15, 0],
        [.addr 0 0, .data [0x00, 0x20, 0x40], .addr 0 1, .data [0x15, 0x15, 0x15]]) := by decide +kernel

/-- X15: the lower write on page 7 is suppressed, its page is flushed all the same. -/
theorem test_putcharxy_suppressed :
    after (clear true) 0x07000000003100410000 [] (fun t => (row 7 0 5 t, t.history)) =
      some ([0, 0, 0, 0, 0],
        [.addr 0 6, .data [0x4C, 0x4E, 0x50, 0x52, 0x54], .addr 0 7, .data [0, 0, 0, 0, 0]]) := by decide +kernel

/-- X33. -/
theorem test_printstrxy_two_lines :
    after (clear false) 0x08000000FFF900030000 [0x41, 0x0A, 0x42] (fun t => (row 0 0 5 t, row 1 0 5 t)) =
      some ([0x57, 0x59, 0x5B, 0x5D, 0x5F], [0x01, 0x01, 0x01, 0x01, 0x01]) := by decide +kernel

/-- X35: the carriage return advances by 6 and draws nothing. -/
theorem test_printstrxy_carriage_return :
    after (clear false) 0x0800FFFB000000020000 [0x0D, 0x41] (row 0 0 7) =
      some [0, 0xA6, 0xA7, 0xA8, 0xA9, 0xAA, 0] := by decide +kernel

/-- O1. -/
theorem test_drawrect :
    after (clear false) 0x090000020002000C0014 [] (fun t => (row 0 1 13 t, row 1 2 2 t, row 2 12 2 t)) =
      some ([0, 0xFC, 4, 4, 4, 4, 4, 4, 4, 4, 4, 0xFC, 0], [0xFF, 0], [0x1F, 0]) := by decide +kernel

/-- O4: the top and the left edge are omitted, not moved. -/
theorem test_drawrect_clipped :
    after (clear false) 0x0900FFFBFFFB000A000A [] (fun t => (row 0 0 11 t, row 1 8 4 t)) =
      some ([0, 0, 0, 0, 0, 0, 0, 0, 0, 0, 0xFF], [4, 4, 7, 0]) := by decide +kernel

/-- F4 and F10. -/
theorem test_fillrect :
    after (clear false) 0x0A000064003C012C003F [] (fun t => t.fb) = some (filled 7 100 28 0xF0) ∧
    after (clear false) 0x0A0000000003007F0004 [] (fun t => t.fb) = some (filled 0 0 128 0x18) := by decide +kernel

/-- F11, on the pages it meets. -/
theorem test_fillrect_inverted :
    after { clear false with fb := filled 1 0 32 0xFF ++ filled 2 0 32 0xFF } 0x0A01000A000A00140014 []
      (fun t => (row 1 9 3 t, row 2 19 3 t)) = some ([0xFF, 0x03, 0x03], [0xE0, 0xE0, 0xFF]) := by decide +kernel

/-- E8 and M8. -/
theorem test_measure :
    after (clear true) 0x0B000000000000040000 [0x41, 0x42, 0x0A, 0x43] (fun t => (t.measW, t.measH, t.history)) =
      some (12, 16, []) ∧
    after (clear true) 0x0B000000000000050000 [0x0A, 0x0A, 0x41, 0x42, 0x43] (fun t => (t.measW, t.measH)) =
      some (18, 24) := by decide

/-- L1, in deferred mode. -/
theorem test_flushall :
    after { clear false with fb := [(1023, 5)] } 0x0C000000000000000000 []
      (fun t => (t.history.length, t.history[14]?, t.history[15]?)) =
      some (16, some (.addr 0 7), some (.data (List.replicate 127 0 ++ [5]))) := by decide +kernel

/-- L2, L4 and L7. -/
theorem test_flushregion :
    after { clear false with fb := filled 0 0 10 0xFF ++ filled 1 0 10 0x03 } 0x0D0000080000000B0001 []
      (fun t => t.history) =
      some [.addr 8 0, .data [0xFF, 0xFF, 0, 0], .addr 8 1, .data [0x03, 0x03, 0, 0]] ∧
    after (clear true) 0x0D00000A000000050000 [] (fun t => t.history) = some [] ∧
    after { clear true with fb := [(645, 9)] } 0x0D000005000500050005 [] (fun t => t.history) =
      some [.addr 5 5, .data [9]] := by decide +kernel

/-- L9 and L10. -/
theorem test_setmode :
    after (clear false) 0x0E040000000000000000 [] (fun t => (t.auto, t.history)) = some (true, []) ∧
    after (clear true) 0x0E000000000000000000 [] (fun t => t.auto) = some false := by decide

/-- S10 and S11. -/
theorem test_getb :
    after { clear true with fb := [(261, 0x81)] } 0x10000005000200000000 [] (fun t => t.rdata) = some 0x81 ∧
    after { clear true with rdata := 0x81 } 0x10000080000200000000 [] (fun t => t.rdata) = some 0x81 := by decide

/-- S1, S2 and S5. -/
theorem test_setb :
    after (clear true) 0x11000005000200810000 [] (fun t => (t.fb, t.history)) = some ([(261, 0x81)], []) ∧
    after (clear true) 0x1100007F000700FF0000 [] (fun t => t.fb) = some [(1023, 0xFF)] ∧
    after (clear true) 0x1100FFFF000000FF0000 [] (fun t => t.fb) = some [] := by decide

/-- S7. -/
theorem test_orb :
    after { clear true with fb := [(3, 0x10)] } 0x12000003000000010000 [] (fun t => t.fb) = some [(3, 0x11)] := by decide

/-- S8, and the clearing of a whole byte, which leaves nothing listed. -/
theorem test_andnb :
    after { clear true with fb := [(3, 0xFF)] } 0x130000030000000F0000 [] (fun t => t.fb) = some [(3, 0xF0)] ∧
    after { clear true with fb := [(3, 0xFF)] } 0x13000003000000FF0000 [] (fun t => t.fb) = some [] := by decide

/-- I4: an illegal frame sets FAULT and does nothing else; no payload byte is taken. -/
theorem test_illegal_frame :
    after { clear true with fb := [(3, 1)] } 0x03000000000000000001 [0x41] (fun t => (t.fault, t.busy, t.fb, t.str)) =
      some (true, false, [(3, 1)], [0x41]) := by decide

/-- I9. -/
theorem test_fault_state : after { clear true with fault := true } 0x03000000000000000000 [] (fun t => t.fb) = none := by
  decide

/-- The table's word for CLEAR is decoded, and runs as the next step. -/
theorem test_withFetchWord :
    decodeTableWord 80 0x03000000000000000000 = some .clear ∧
    (match step ((clear true).withFetchWord 80 0x0B000000000000030000) with
      | .next t => some (t.measW, t.str)
      | .fault _ => none
      | .refused _ => none) = some (18, []) := ⟨rfl, by decide⟩

/-! ### Witnesses: for every statement with hypotheses, a state and operands that meet all of them, with a boundary value for each
clause -/

theorem test_witness_decodeOfEncode :
    WellFormed (.printstr true true 0) ∧ WellFormed (.printstrxy true false 0xFF 0x8000 0x7FFF) ∧
      WellFormed (.measure false 1) ∧ WellFormed (.setmode false) := by decide

theorem test_witness_encodeOfDecode :
    encode (.drawrect true (-1) 0x8000 0x7FFF 0) = 0x0901FFFF80007FFF0000 ∧ decode 0x0903FFFF80007FFF0000 = .error .reservedBits ∧
    decode 0x0901FFFF80007FFF0000 = .ok (.drawrect true (-1) 0x8000 0x7FFF 0) := ⟨rfl, rfl, rfl⟩

theorem test_witness_legalFrames :
    ∃ r ∈ encodingTable, (0x06020000000000000000 : Frame) &&& r.mask = r.pattern ∧ r.counted = true ∧
      absentBit 0x06020000000000000000 = true ∧ lowField 0x06020000000000000000 = 0 :=
  ⟨⟨0x06, 0x06000000000000000000, 0xFFFCFFFFFFFFFF00FFFF, true,
    fun f => .printstr (invBit f) (absentBit f) (lowField f)⟩,
   .tail _ (.tail _ (.tail _ (.tail _ (.tail _ (.head _))))), by decide, rfl, by decide, by decide⟩

theorem test_witness_payloadLength :
    decode 0x08000001000400FF0000 = .ok (.printstrxy false false 0xFF 1 4) ∧ commandBytes 0x08000001000400FF0000 = 265 ∧
      decode 0x08020001000400000000 = .ok (.printstrxy false true 0 1 4) ∧ commandBytes 0x08020001000400000000 = 10 :=
  ⟨rfl, rfl, rfl, rfl⟩

/-- A state that accepts, with a legal frame at the head of CMD and one behind it. -/
def ready : State := { clear true with cmd := [0x0E040000000000000000, 0], str := [1, 2] }

theorem test_witness_step :
    ready.rst = .low ∧ ready.fault = false ∧ ready.busy = false ∧ ready.cmd = 0x0E040000000000000000 :: [0] ∧
      decode 0x0E040000000000000000 = .ok (.setmode true) := ⟨rfl, rfl, rfl, rfl, rfl⟩

/-- A state that accepts, with an illegal frame at the head of CMD. -/
def misled : State := { clear true with cmd := [0x03000000000000000001] }

theorem test_witness_illegalFrame :
    misled.rst = .low ∧ misled.fault = false ∧ misled.busy = false ∧ misled.cmd = 0x03000000000000000001 :: [] ∧
      decode 0x03000000000000000001 = .error .reservedBits := ⟨rfl, rfl, rfl, rfl, rfl⟩

theorem test_witness_faultState :
    { ready with fault := true }.rst = .low ∧ { ready with fault := true }.fault = true := ⟨rfl, rfl⟩

theorem test_witness_idle :
    (clear true).rst = .low ∧ (clear true).fault = false ∧ (clear true).busy = false ∧ (clear true).cmd = [] :=
  ⟨rfl, rfl, rfl, rfl⟩

/-- Reset out of the fault state, with a history behind it. -/
theorem test_witness_hardwareReset :
    { ready with rst := .high, fault := true, history := [.addr 0 0] }.rst = .high := rfl

/-- A reset inside a PRINTSTR of three characters. -/
def cut : State :=
  { clear true with cmd := [0x06000000000000030000], str := [0x41, 0x42, 0x43, 0x44], rst := .inCommand }

/-- The payload there, with the transport stalled or not; the payload one byte short, for a PRINTSTR and for a MEASURE; an illegal
frame; no frame, FAULT = 1, BUSY = 1. -/
theorem test_witness_resetInsideACommand :
    cut.rst = .inCommand ∧ cut.fault = false ∧ cut.busy = false ∧ { cut with stalled := true }.rst = .inCommand ∧
      cut.cmd = 0x06000000000000030000 :: [] ∧ decode 0x06000000000000030000 = .ok (.printstr false false 3) ∧
      payloadLength (.printstr false false 3) ≤ cut.str.length ∧
      { cut with str := [0x41, 0x42] }.str.length < payloadLength (.printstr false false 3) ∧
      decode 0x0B000000000000050000 = .ok (.measure false 5) ∧ cut.str.length < payloadLength (.measure false 5) ∧
      { cut with cmd := [0, 1] }.cmd = 0 :: [1] ∧ decode 0 = .error .unassignedOpcode ∧
      { cut with cmd := [] }.cmd = [] ∧ { cut with fault := true }.fault = true ∧ { cut with busy := true }.busy = true :=
  ⟨rfl, rfl, rfl, rfl, rfl, rfl, by decide, by decide, rfl, by decide, rfl, rfl, rfl, rfl, rfl⟩

/-- A reset while a PRINTSTR waits for its third byte: the frame and the state are gone, and nothing of another command's payload
is taken (70 R284, R291 b). -/
theorem test_reset_while_waiting :
    (match step { cut with str := [0x41, 0x42], curCol := 9, stalled := true } with
      | .next t => some (t.cmd, t.curCol, t.history, t.rst)
      | .fault _ => none
      | .refused _ => none) = some ([], 0, [], .low) := by decide

/-- A reset out of the fault state in the same form. -/
theorem test_reset_in_fault_state :
    (match step { cut with fault := true } with
      | .next t => some (t.cmd.length, t.str.length, t.fault, t.past)
      | .fault _ => none
      | .refused _ => none) = some (1, 4, false, []) := by decide

/-- The payload exactly there. -/
theorem test_witness_completes :
    cut.stalled = false ∧ payloadLength (.printstr false false 4) ≤ cut.str.length ∧
      payloadLength (.measure true 0xFF) ≤ (clear true).str.length := by decide

/-- One byte short. -/
theorem test_witness_shortPayload : cut.str.length < payloadLength (.measure false 5) := by decide

/-- A transport that does not accept, and a command that would emit; and one that would not. -/
theorem test_witness_stalled :
    { clear true with stalled := true }.stalled = true ∧
      (∃ t, exec .flushall (clear true) = .next t ∧ t.history ≠ (clear true).history) ∧
      ∃ t, exec (.fillrect false 200 0 300 10) (clear true) = .next t ∧ t.history = (clear true).history :=
  ⟨rfl, ⟨_, rfl, by decide⟩, ⟨_, rfl, by decide⟩⟩

/-- A state in which every command of the frame statements has something to do. -/
def busyBoard : State :=
  { clear true with fb := [(0, 0xFF), (261, 0x81), (1023, 1)], curCol := 120, curPage := 2, str := [0x41, 0x0A, 0x42] }

theorem test_witness_keepsControl :
    (∃ t, exec (.printstr true false 3) busyBoard = .next t) ∧ ∃ t, exec (.measure false 2) busyBoard = .next t :=
  ⟨⟨_, rfl⟩, ⟨_, rfl⟩⟩

/-- A command for each clause: one that writes none of the registers, and one that writes each. -/
theorem test_witness_registerWriters :
    (∃ t, exec (.fillrect true 0 0 9 9) busyBoard = .next t) ∧ (Instr.fillrect true 0 0 9 9 ≠ .init) ∧
      (∃ t, exec (.setmode false) busyBoard = .next t ∧ t.auto ≠ busyBoard.auto) ∧
      (∃ t, exec (.putchar true 0x41) busyBoard = .next t ∧ t.curCol ≠ busyBoard.curCol) ∧
      (∃ t, exec (.setcursor 0 0) busyBoard = .next t ∧ t.curPage ≠ busyBoard.curPage) ∧
      (∃ t, exec (.measure false 3) busyBoard = .next t ∧ t.measH ≠ busyBoard.measH) ∧
      ∃ t, exec (.getb 5 2) busyBoard = .next t ∧ t.rdata ≠ busyBoard.rdata :=
  ⟨⟨_, rfl⟩, by decide, ⟨_, rfl, by decide⟩, ⟨_, rfl, by decide⟩, ⟨_, rfl, by decide⟩, ⟨_, rfl, by decide⟩,
    ⟨_, rfl, by decide⟩⟩

theorem test_witness_neverWriteTheFramebuffer :
    (∃ t, exec (.setcursor 1 2) busyBoard = .next t) ∧ (∃ t, exec (.measure false 3) busyBoard = .next t) ∧
      (∃ t, exec .flushall busyBoard = .next t) ∧ (∃ t, exec (.flushregion 0 0 127 7) busyBoard = .next t) ∧
      (∃ t, exec (.setmode true) busyBoard = .next t) ∧ ∃ t, exec (.getb 127 7) busyBoard = .next t :=
  ⟨⟨_, rfl⟩, ⟨_, rfl⟩, ⟨_, rfl⟩, ⟨_, rfl⟩, ⟨_, rfl⟩, ⟨_, rfl⟩⟩

/-- An inverted drawing command on a canonical framebuffer, at the first and the last pixel. -/
theorem test_witness_drawing :
    draws (.fillrect true 0 0 9 9) = true ∧ busyBoard.fb.wf = true ∧
      (∃ t, exec (.fillrect true 0 0 9 9) busyBoard = .next t) ∧
      (0 ≤ (0 : Int) ∧ (0 : Int) < 128) ∧ (0 ≤ (63 : Int) ∧ (63 : Int) < 64) :=
  ⟨rfl, by decide, ⟨_, rfl⟩, by decide, by decide⟩

theorem test_witness_deferred :
    draws (.printstrxy false false 3 0 0) = true ∧ { busyBoard with auto := false }.auto = false ∧
      ∃ t, exec (.printstrxy false false 3 0 0) { busyBoard with auto := false } = .next t := ⟨rfl, rfl, _, rfl⟩

theorem test_witness_quiet :
    draws (.setb 0 0 1) = false ∧ Instr.setb 0 0 1 ≠ .clearflush ∧ Instr.setb 0 0 1 ≠ .flushall ∧
      (∀ c0 p0 c1 p1, Instr.setb 0 0 1 ≠ .flushregion c0 p0 c1 p1) ∧ ∃ t, exec (.setb 0 0 1) busyBoard = .next t :=
  ⟨rfl, by decide, by decide, fun _ _ _ _ => by simp, _, rfl⟩

/-- A state no run need reach, with the invariant, and its step. -/
theorem test_witness_invariant :
    Invariant { busyBoard with cmd := [0x0C000000000000000000], history := [.addr 0 7, .data [1]] } ∧
      ∃ t, step { busyBoard with cmd := [0x0C000000000000000000], history := [.addr 0 7, .data [1]] } = .next t :=
  ⟨⟨by decide, by decide +kernel, by decide, rfl⟩, _, rfl⟩

/-- A canonical framebuffer, with the first and the last cell listed. -/
theorem test_witness_canonical : busyBoard.fb.wf = true := by decide

theorem test_witness_storeLaws : fbGet busyBoard.fb 5 2 &&& 0x42 = 0 ∧ busyBoard.fb.wf = true := by decide

/-- In range at both ends, and out of range on each side. -/
theorem test_witness_getb :
    (0 ≤ (0 : Half).toInt ∧ (127 : Half).toInt < 128 ∧ 0 ≤ (0 : Half).toInt ∧ (7 : Half).toInt < 8) ∧
      ¬(128 : Half).toInt < 128 ∧ ¬(0 ≤ (-1 : Half).toInt) ∧ ¬(8 : Half).toInt < 8 := by decide

/-- The font port at the boundaries of both address forms: 0x20 and 0x7F, and 0x1F and 0x80, which are drawn as the space. -/
theorem test_witness_fontPort :
    fontT[(0x20 - 0x20) * 5 + 0]? = some 1 ∧ fontT[(0x7F - 0x20) * 5 + 4]? = some 0xE0 ∧ fontT[4]? = some 5 ∧
      ¬(0x20 ≤ (0x1F : Byte).toNat) ∧ ¬((0x80 : Byte).toNat ≤ 0x7F) := by decide +kernel

/-- PUTCHAR: a cell that exists at the right edge (i = 4 at column 127), and a byte no column names. -/
theorem test_witness_putchar :
    { busyBoard with curCol := 123 }.stalled = false ∧ { busyBoard with curCol := 123 }.fb.wf = true ∧
      (123 : Half).toInt + 4 = 127 ∧
      0 ≤ busyBoard.curPage.toInt ∧ busyBoard.curPage.toInt < 8 ∧
      ∀ i : Nat, i < 5 → ¬((0 : Nat) : Int) = busyBoard.curPage.toInt * 128 + (busyBoard.curCol.toInt + i) :=
  ⟨rfl, by decide, by decide, by decide, by decide, fun i _ => by
    have h1 : busyBoard.curPage.toInt = 2 := by decide
    have h2 : busyBoard.curCol.toInt = 120 := by decide
    rw [h1, h2]; omega⟩

theorem test_witness_putcharFlush :
    (∃ t, exec (.putchar false 0x41) busyBoard = .next t) ∧ busyBoard.auto = true ∧
      (∃ t, exec (.putchar false 0x41) { busyBoard with curCol := -4 } = .next t ∧ t.history.length = 2) ∧
      ∃ t, exec (.putchar false 0x41) { busyBoard with curCol := -5 } = .next t ∧ t.history = [] :=
  ⟨⟨_, rfl⟩, rfl, ⟨_, rfl, by decide⟩, ⟨_, rfl, by decide⟩⟩

theorem test_witness_printstr :
    busyBoard.stalled = false ∧ busyBoard.str = [0x41, 0x0A] ++ [0x42] ∧ [0x41#8, 0x0A].length = (2 : Byte).toNat :=
  ⟨rfl, rfl, rfl⟩

/-- PUTCHARXY: a pixel of 'A' (the top of its last column, bit 1 of 0xAA) and one that is none. -/
theorem test_witness_putcharxyPixels :
    busyBoard.stalled = false ∧ busyBoard.fb.wf = true ∧
      glyphPixel (clear true).params 0x41 0 3 4 4 ∧ ¬glyphPixel (clear true).params 0x41 0 3 5 4 := by
  refine ⟨rfl, by decide, ⟨by decide, by decide, by decide, by decide, by decide, by decide,
    ⟨0xAA, by decide +kernel, by decide⟩, by decide⟩, ?_⟩
  rintro ⟨_, _, _, h, _⟩
  exact absurd h (by decide)

/-- A value of each disjunct, at its boundary. -/
theorem test_witness_putcharxyNoOps :
    (0x1F : Byte).toNat < 0x20 ∧ 0x7F < (0x80 : Byte).toNat ∧ (-5 : Half).toInt ≤ -5 ∧ 133 ≤ (133 : Half).toInt ∧
      (-8 : Half).toInt ≤ -8 ∧ 72 ≤ (72 : Half).toInt := by decide

/-- PUTCHARXY 'A' that flushes one page and two, and one that is on the canvas and flushes nothing (95_test_vectors X13). -/
theorem test_witness_putcharxyFlush :
    busyBoard.auto = true ∧ 0x20 ≤ (0x41 : Byte).toNat ∧ (0x41 : Byte).toNat ≤ 0x7F ∧
      (∃ t, exec (.putcharxy false 0x41 (-4) (-7)) busyBoard = .next t ∧ t.history.length = 2) ∧
      (∃ t, exec (.putcharxy false 0x41 127 49) busyBoard = .next t ∧ t.history.length = 4) ∧
      ∃ t, exec (.putcharxy false 0x41 132 0) busyBoard = .next t ∧ t.history = [] :=
  ⟨rfl, by decide, by decide, ⟨_, rfl, by decide⟩, ⟨_, rfl, by decide⟩, ⟨_, rfl, by decide⟩⟩

/-- PRINTSTRXY rejected on each side, at the boundary (95_test_vectors X38, X40, X32). -/
theorem test_witness_printstrxyRejection :
    busyBoard.str = [0x41, 0x0A] ++ [0x42] ∧ [0x41#8, 0x0A].length = (2 : Byte).toNat ∧
      (-6 : Half).toInt + (measureString [0x41, 0x0A]).1 ≤ 0 ∧ 128 ≤ (128 : Half).toInt ∧ (-8 : Half).toInt ≤ -8 ∧
      72 ≤ (72 : Half).toInt := ⟨rfl, rfl, by decide, by decide, by decide, by decide⟩

/-- PRINTSTRXY accepted, as far out as it can be. -/
theorem test_witness_printstrxy :
    busyBoard.stalled = false ∧ busyBoard.str = [0x41, 0x0A] ++ [0x42] ∧ [0x41#8, 0x0A].length = (2 : Byte).toNat ∧
      ¬((-5 : Half).toInt + (measureString [0x41, 0x0A]).1 ≤ 0 ∨ 128 ≤ (-5 : Half).toInt ∨ (71 : Half).toInt ≤ -8 ∨
        72 ≤ (71 : Half).toInt) := ⟨rfl, rfl, rfl, by decide⟩

theorem test_witness_measure :
    busyBoard.str = [0x41, 0x0A, 0x42] ++ [] ∧ [0x41#8, 0x0A, 0x42].length = (3 : Byte).toNat := ⟨rfl, rfl⟩

theorem test_witness_measureFunction : (List.replicate 255 (0x41 : Byte)).length ≤ 255 :=
  (List.length_replicate ..).le

/-- The rectangles: a canonical framebuffer, the first and the last pixel, corners on and off the screen. -/
theorem test_witness_rectangles :
    busyBoard.stalled = false ∧ busyBoard.fb.wf = true ∧
      (∃ t, exec (.fillrect false 9 9 0 0) busyBoard = .next t ∧ t.history.length = 4) ∧
      (∃ t, exec (.drawrect true 127 63 300 300) busyBoard = .next t ∧ t.history.length = 2) ∧
      ∃ t, exec (.drawrect true 128 0 300 10) busyBoard = .next t ∧ t.history = [] :=
  ⟨rfl, by decide, ⟨_, rfl, by decide +kernel⟩, ⟨_, rfl, by decide +kernel⟩, ⟨_, rfl, by decide⟩⟩

theorem test_witness_fillTwice :
    busyBoard.fb.wf = true ∧ ∃ t u, exec (.fillrect false 0 0 3 3) busyBoard = .next t ∧
      exec (.fillrect false 0 0 3 3) t = .next u := ⟨by decide, _, _, rfl, rfl⟩

theorem test_witness_undo :
    (clear true).fb = Memory.clear ∧
      (∃ t u, exec (.fillrect false 0 0 3 3) (clear true) = .next t ∧ exec (.fillrect true 0 0 3 3) t = .next u) ∧
      ∃ t u, exec (.drawrect false 0 0 3 3) (clear true) = .next t ∧ exec (.drawrect true 0 0 3 3) t = .next u :=
  ⟨rfl, ⟨_, _, rfl, rfl⟩, ⟨_, _, rfl, rfl⟩⟩

/-- FLUSHREGION: empty by one column, empty by one page, and a region of one cell at the last corner. -/
theorem test_witness_flushregion :
    busyBoard.stalled = false ∧ max (128 : Half).toInt 0 > min (200 : Half).toInt 127 ∧
      max (8 : Half).toInt 0 > min (9 : Half).toInt 7 ∧ max (127 : Half).toInt 0 ≤ min (200 : Half).toInt 127 ∧
      max (7 : Half).toInt 0 ≤ min (9 : Half).toInt 7 := by decide

theorem test_witness_status : (clear true).busy = false := rfl

/-- Three commands, two of them with a payload. -/
def script : List Command := [⟨.init, []⟩, ⟨.printstr false false 2, [0x48, 0x69]⟩, ⟨.measure true 0, []⟩]

theorem test_witness_presented :
    (∀ c ∈ script, c.wf = true) ∧ Accepting (clear true) ∧ (clear true).stalled = false ∧ (clear true).cmd = [] ∧
      (clear true).str = [] := by
  refine ⟨by decide, ⟨rfl, rfl, rfl⟩, rfl, rfl, rfl⟩

/-- The same behind which an illegal frame and another one stand. -/
theorem test_witness_faultedRun :
    (∀ c ∈ script, c.wf = true) ∧ Accepting { clear true with cmd := script.map (fun c => encode c.instr) ++ [0, 1] } ∧
      { clear true with str := [0x48, 0x69, 0x55] }.str = script.flatMap (fun c => c.payload) ++ [0x55] ∧
      decode 0 = .error .unassignedOpcode := by
  refine ⟨by decide, ⟨rfl, rfl, rfl⟩, rfl, rfl⟩

end Sys2Proof.Tests
end

/-! PROOFS. The state's family (10_state): what a step does with a legal frame, what every command leaves unchanged, which command
writes which register, the deferred mode, the reset state, the status wires. -/

namespace Sys2Proof.Machine

/-! ### The fetch of a frame (10_state R23, R30) -/

/-- A block that accepts takes the frame at the head of CMD and looks at it. -/
theorem fetch_of_frame {s : State} {f : Frame} {rest : List Frame} (hs : Accepting s) (hc : s.cmd = f :: rest) :
    fetch s = fetchFrame f (accept rest s) := by
  obtain ⟨hr, hf, hb⟩ := hs
  simp [fetch, hr, hf, hb, hc]

theorem fetchFrame_of_decode {f : Frame} {i : Instr} (hd : decode f = .ok i) (s : State) :
    fetchFrame f s = .run i s := by
  simp [fetchFrame, hd]

/-- A step on a legal frame is the command it decodes to, run after the acceptance of the frame. -/
theorem step_of_decode {s : State} {f : Frame} {rest : List Frame} {i : Instr} (hs : Accepting s)
    (hc : s.cmd = f :: rest) (hd : decode f = .ok i) : step s = exec i (accept rest s) := by
  rw [step, fetch_of_frame hs hc, fetchFrame_of_decode hd]

/-- Settles O7: the acceptance of a frame takes it off CMD and raises BUSY. -/
theorem stepRunsTheDecodedCommand : Obligations.StepRunsTheDecodedCommand :=
  fun _ _ _ _ hr hf hb hc hd => step_of_decode ⟨hr, hf, hb⟩ hc hd

/-! ### Reset and the status wires (10_state R30, R31) -/

/-- Settles O23: the free framebuffer of a reset is canonical, the machine's own parameters are allowed ones. -/
theorem invariantHoldsAtReset : Obligations.InvariantHoldsAtReset :=
  ⟨State.reset_fb_wf, machineParams_wf, rfl, rfl⟩

theorem State.status_of_idle {s : State} (hb : s.busy = false) :
    s.status =
      { curCol := s.curCol, curPage := s.curPage, auto := s.auto, measW := s.measW, measH := s.measH,
        rdata := s.rdata, fault := s.fault, busy := false } := by
  simp [State.status, hb]

theorem State.status_of_busy {s : State} (hb : s.busy = true) :
    s.status = { Config.busyStatus s.history.length with fault := s.fault, busy := true } := by
  simp [State.status, hb]

/-- Settles O58: BUSY and FAULT are on the wires in both readings of `status`. -/
theorem statusWires : Obligations.StatusWires := by
  intro s
  cases hb : s.busy with
  | false =>
    rw [State.status_of_idle hb]
    exact ⟨rfl, rfl, fun _ => rfl⟩
  | true =>
    rw [State.status_of_busy hb]
    exact ⟨rfl, rfl, fun h => absurd h (by decide)⟩

/-! ### The control state and the framebuffer (10_state R29, R36) -/

/-- Settles O17: what every effect keeps, from the state whose payload has been taken. -/
theorem commandsKeepTheControlState : Obligations.CommandsKeepTheControlState := by
  intro i s t h
  obtain ⟨rfl, -⟩ := exec_next h
  have k := effect_keeps i (s.str.take (payloadLength i)) (taken i s)
  exact ⟨k.fault, rfl, k.params, k.cmd, k.past, k.rst, k.stalled, k.resets, k.str, k.history⟩

/-- A command whose effect leaves the framebuffer leaves every byte of it. -/
theorem exec_read_of_effect_fb {i : Instr} {s t : State} (he : ∀ bytes u, (effect i bytes u).fb = u.fb)
    (h : exec i s = .next t) (a : Nat) : t.fb.read a = s.fb.read a := by
  obtain ⟨rfl, -⟩ := exec_next h
  exact congrArg (Memory.read · a) (he _ (taken i s))

theorem effect_measure_fb (absent : Bool) (len : Byte) (bytes : List Byte) (s : State) :
    (effect (.measure absent len) bytes s).fb = s.fb := by
  cases absent <;> rfl

theorem effect_getb_fb (col page : Half) (bytes : List Byte) (s : State) :
    (effect (.getb col page) bytes s).fb = s.fb := by
  simp only [effect]
  split <;> rfl

/-- Settles O19: the effect of each of the six commands leaves the framebuffer. -/
theorem commandsThatNeverWriteTheFramebuffer : Obligations.CommandsThatNeverWriteTheFramebuffer := by
  intro s t
  refine ⟨fun c p => ?setcursor, fun absent len => ?measure, ?flushall, fun c0 p0 c1 p1 => ?flushregion,
    fun b => ?setmode, fun c p => ?getb⟩
  case setcursor | flushall | flushregion | setmode => exact exec_read_of_effect_fb fun _ _ => rfl
  case measure => exact exec_read_of_effect_fb (effect_measure_fb absent len)
  case getb => exact exec_read_of_effect_fb (effect_getb_fb c p)

/-! ### The registers (10_state R24 to R28) -/

/-- Both states hold the same registers. -/
structure SameRegisters (s t : State) : Prop where
  auto : t.auto = s.auto
  curCol : t.curCol = s.curCol
  curPage : t.curPage = s.curPage
  measW : t.measW = s.measW
  measH : t.measH = s.measH
  rdata : t.rdata = s.rdata

theorem SameRegisters.refl (s : State) : SameRegisters s s := ⟨rfl, rfl, rfl, rfl, rfl, rfl⟩

theorem SameRegisters.trans {s t u : State} (h : SameRegisters s t) (k : SameRegisters t u) : SameRegisters s u :=
  ⟨k.auto.trans h.auto, k.curCol.trans h.curCol, k.curPage.trans h.curPage, k.measW.trans h.measW,
    k.measH.trans h.measH, k.rdata.trans h.rdata⟩

/-- A character at a pixel position writes no register (42 R160). -/
theorem charAtXY_sameRegisters (ch : Byte) (x y : Int) (inv : Bool) (s : State) :
    SameRegisters s (charAtXY ch x y inv s) := by
  obtain ⟨ws, ts, h, -, -⟩ := charAtXY_form ch x y inv s
  rw [h]
  exact ⟨rfl, rfl, rfl, rfl, rfl, rfl⟩

/-- A rectangle writes no register (43 R210, R220). -/
theorem drawBox_sameRegisters (writes : Box → List MaskWrite) (inv : Bool) (b : Box) (s : State) :
    SameRegisters s (drawBox writes inv b s) := by
  obtain ⟨ws, ts, h, -, -⟩ := drawBox_form writes inv b s
  rw [h]
  exact ⟨rfl, rfl, rfl, rfl, rfl, rfl⟩

/-- Of the registers, only CUR_COL differs between the two states. -/
def SameButCurCol (s t : State) : Prop := SameRegisters s { t with curCol := s.curCol }

theorem SameButCurCol.trans {s t u : State} (h : SameButCurCol s t) (k : SameButCurCol t u) : SameButCurCol s u :=
  ⟨k.auto.trans h.auto, rfl, k.curPage.trans h.curPage, k.measW.trans h.measW, k.measH.trans h.measH,
    k.rdata.trans h.rdata⟩

/-- A character at the cursor writes no register but CUR_COL (41 R141, R143). -/
theorem charAtCursor_sameButCurCol (ch : Byte) (inv : Bool) (s : State) : SameButCurCol s (charAtCursor ch inv s) := by
  rw [charAtCursor_eq]
  exact ⟨rfl, rfl, rfl, rfl, rfl, rfl⟩

theorem printAtCursor_sameButCurCol (inv : Bool) (bytes : List Byte) (s : State) :
    SameButCurCol s (printAtCursor inv bytes s) :=
  printAtCursor_rel (R := SameButCurCol) SameRegisters.refl SameButCurCol.trans inv
    (fun ch s => charAtCursor_sameButCurCol ch inv s) bytes s

/-- A register that differs between `s` and `t` is one that the spec lets `i`, not INIT, write (10_state R36). -/
structure WritesOnlyItsRegisters (i : Instr) (s t : State) : Prop where
  auto : (∀ b, i ≠ .setmode b) → t.auto = s.auto
  curCol : (∀ c p, i ≠ .setcursor c p) → (∀ v c, i ≠ .putchar v c) → (∀ v a n, i ≠ .printstr v a n) →
    t.curCol = s.curCol
  curPage : (∀ c p, i ≠ .setcursor c p) → t.curPage = s.curPage
  meas : (∀ a n, i ≠ .measure a n) → t.measW = s.measW ∧ t.measH = s.measH
  rdata : (∀ c p, i ≠ .getb c p) → t.rdata = s.rdata

theorem SameRegisters.writesOnly {s t : State} (h : SameRegisters s t) (i : Instr) : WritesOnlyItsRegisters i s t :=
  ⟨fun _ => h.auto, fun _ _ _ => h.curCol, fun _ => h.curPage, fun _ => ⟨h.measW, h.measH⟩, fun _ => h.rdata⟩

/-- The text commands at the cursor may write CUR_COL. -/
theorem SameButCurCol.writesOnly {s t : State} {i : Instr} (h : SameButCurCol s t)
    (hi : (∃ v c, i = .putchar v c) ∨ ∃ v a n, i = .printstr v a n) : WritesOnlyItsRegisters i s t where
  auto _ := h.auto
  curCol _ hp hs := by
    rcases hi with ⟨v, c, rfl⟩ | ⟨v, a, n, rfl⟩
    · exact absurd rfl (hp v c)
    · exact absurd rfl (hs v a n)
  curPage _ := h.curPage
  meas _ := ⟨h.measW, h.measH⟩
  rdata _ := h.rdata

/-- Every command but INIT writes only the registers the spec lists for it. -/
theorem effect_writesOnlyItsRegisters {i : Instr} (hi : i ≠ .init) (bytes : List Byte) (s : State) :
    WritesOnlyItsRegisters i s (effect i bytes s) := by
  cases i with
  | init => exact absurd rfl hi
  | setcursor c p =>
    exact ⟨fun _ => rfl, fun h => absurd rfl (h c p), fun h => absurd rfl (h c p), fun _ => ⟨rfl, rfl⟩, fun _ => rfl⟩
  | putchar v c => exact (charAtCursor_sameButCurCol c v s).writesOnly (.inl ⟨v, c, rfl⟩)
  | printstr v absent n =>
    cases absent with
    | true => exact (SameRegisters.refl s).writesOnly _
    | false => exact (printAtCursor_sameButCurCol v bytes s).writesOnly (.inr ⟨v, false, n, rfl⟩)
  | putcharxy v c x y => exact (charAtXY_sameRegisters c _ _ v s).writesOnly _
  | printstrxy v absent n x y =>
    cases absent with
    | true => exact (SameRegisters.refl s).writesOnly _
    | false =>
      exact (printAtXY_rel SameRegisters.refl SameRegisters.trans v
        (fun ch x y s => charAtXY_sameRegisters ch x y v s) _ _ bytes s).writesOnly _
  | drawrect => exact (drawBox_sameRegisters _ _ _ s).writesOnly _
  | fillrect => exact (drawBox_sameRegisters _ _ _ s).writesOnly _
  | measure absent n =>
    cases absent with
    | true => exact (SameRegisters.refl s).writesOnly _
    | false =>
      exact ⟨fun _ => rfl, fun _ _ _ => rfl, fun _ => rfl, fun h => absurd rfl (h false n), fun _ => rfl⟩
  | setmode b =>
    exact ⟨fun h => absurd rfl (h b), fun _ _ _ => rfl, fun _ => rfl, fun _ => ⟨rfl, rfl⟩, fun _ => rfl⟩
  | getb c p =>
    simp only [effect]
    split
    · exact ⟨fun _ => rfl, fun _ _ _ => rfl, fun _ => rfl, fun _ => ⟨rfl, rfl⟩, fun h => absurd rfl (h c p)⟩
    · exact (SameRegisters.refl s).writesOnly _
  | clear | clearflush | flushall | flushregion | setb | orb | andnb =>
    refine SameRegisters.writesOnly ?_ _
    exact ⟨rfl, rfl, rfl, rfl, rfl, rfl⟩

/-- Settles O18, by what the effect of each command writes. -/
theorem registerWriters : Obligations.RegisterWriters := by
  intro i s t h hi
  obtain ⟨rfl, -⟩ := exec_next h
  have k := effect_writesOnlyItsRegisters hi (s.str.take (payloadLength i)) (taken i s)
  exact ⟨k.auto, k.curCol, k.curPage, k.meas, k.rdata⟩

/-! ### The deferred mode (10_state R26, 44 R231) -/

/-- AUTO is kept, and with AUTO = 0 the history too: AUTO stands here because a string command is quiet after its first character
only if that one kept AUTO. -/
structure QuietWhenDeferred (s t : State) : Prop where
  auto : t.auto = s.auto
  history : s.auto = false → t.history = s.history

theorem QuietWhenDeferred.refl (s : State) : QuietWhenDeferred s s := ⟨rfl, fun _ => rfl⟩

theorem QuietWhenDeferred.trans {s t u : State} (h : QuietWhenDeferred s t) (k : QuietWhenDeferred t u) :
    QuietWhenDeferred s u :=
  ⟨k.auto.trans h.auto, fun h0 => (k.history (h.auto.trans h0)).trans (h.history h0)⟩

/-- What keeps AUTO and appends nothing to the history in deferred mode. -/
theorem QuietWhenDeferred.of_append {s t : State} {ts : List Transaction} (ha : t.auto = s.auto)
    (hh : t.history = s.history ++ ts) (h : s.auto = false → ts = []) : QuietWhenDeferred s t :=
  ⟨ha, fun h0 => by rw [hh, h h0, List.append_nil]⟩

theorem charAtCursor_quiet (ch : Byte) (inv : Bool) (s : State) : QuietWhenDeferred s (charAtCursor ch inv s) := by
  rw [charAtCursor_eq]
  exact .of_append rfl rfl fun h0 => by simp [autoTransactions, h0]

theorem charAtXY_quiet (ch : Byte) (x y : Int) (inv : Bool) (s : State) :
    QuietWhenDeferred s (charAtXY ch x y inv s) := by
  obtain ⟨ws, ts, h, -, hq⟩ := charAtXY_form ch x y inv s
  rw [h]
  exact .of_append rfl rfl hq

theorem drawBox_quiet (writes : Box → List MaskWrite) (inv : Bool) (b : Box) (s : State) :
    QuietWhenDeferred s (drawBox writes inv b s) := by
  obtain ⟨ws, ts, h, -, hq⟩ := drawBox_form writes inv b s
  rw [h]
  exact .of_append rfl rfl hq

/-- Every drawing command keeps AUTO and is quiet in deferred mode. -/
theorem effect_quietWhenDeferred {i : Instr} (hd : draws i = true) (bytes : List Byte) (s : State) :
    QuietWhenDeferred s (effect i bytes s) := by
  cases i with
  | putchar inv ch => exact charAtCursor_quiet ch inv s
  | printstr inv absent len =>
    cases absent with
    | true => exact .refl s
    | false =>
      exact printAtCursor_rel QuietWhenDeferred.refl QuietWhenDeferred.trans inv
        (fun ch s => charAtCursor_quiet ch inv s) bytes s
  | putcharxy inv ch x y => exact charAtXY_quiet ch _ _ inv s
  | printstrxy inv absent len x y =>
    cases absent with
    | true => exact .refl s
    | false =>
      exact printAtXY_rel QuietWhenDeferred.refl QuietWhenDeferred.trans inv
        (fun ch x y s => charAtXY_quiet ch x y inv s) _ _ bytes s
  | drawrect => exact drawBox_quiet _ _ _ s
  | fillrect => exact drawBox_quiet _ _ _ s
  | init | setcursor | clear | clearflush | measure | flushall | flushregion | setmode | getb | setb | orb | andnb =>
    exact absurd hd Bool.false_ne_true

/-- Settles O21, by what the effect of a drawing command appends with AUTO = 0. -/
theorem deferredDrawingEmitsNothing : Obligations.DeferredDrawingEmitsNothing := by
  intro i s t hd h0 h
  obtain ⟨rfl, -⟩ := exec_next h
  exact (effect_quietWhenDeferred hd _ (taken i s)).history h0

end Sys2Proof.Machine

/-! PROOFS. The framebuffer's family (20_memory): the store primitives and their laws, what a drawing command does to pixels, the
invariant of every step, and the mirror a flush makes of its region. -/

namespace Sys2Proof.Machine

/-! ### The store primitives (20_memory R54 to R58, R61) -/

/-- Settles O26: the bounds check and the index of a cell, written out. -/
theorem fbGetIsBoundsChecked : Obligations.FbGetIsBoundsChecked := by
  intro fb c p
  simp only [fbGet, inRange_iff, idx]

/-- The cell that a store primitive with arguments c, p names, if it is in range (20_memory R51, R54). -/
theorem inRange_and_eq_idx_iff {c p : Int} {a : Nat} :
    inRange c p = true ∧ a = idx c p ↔ (0 ≤ c ∧ c < 128 ∧ 0 ≤ p ∧ p < 8) ∧ (a : Int) = p * 128 + c := by
  rw [inRange_iff, idx]
  omega

/-- Settles O25: FbOr and FbAndNot are the two cases of Apply. -/
theorem storePrimitivesWriteOneCell : Obligations.StorePrimitivesWriteOneCell := by
  intro fb c p v a h
  simp only [← inRange_and_eq_idx_iff]
  exact ⟨read_fbSet h c p v a, read_apply h c p v false a, read_apply h c p v true a⟩

/-- Two masks applied to a byte are one, their union (20_memory R61). -/
theorem applied_applied (inv : Bool) (m n v : Byte) : applied inv n (applied inv m v) = applied inv (m ||| n) v := by
  cases inv with
  | false => exact BitVec.or_assoc v m n
  | true => simp only [applied, if_true, BitVec.not_or, BitVec.and_assoc]

/-- Clearing the bits just set restores a byte in which they were clear (20_memory R61). -/
theorem applied_true_applied_false {m v : Byte} (h : v &&& m = 0) : applied true m (applied false m v) = v := by
  refine BitVec.eq_of_getLsbD_eq fun k _ => ?_
  have hk : (v.getLsbD k && m.getLsbD k) = false := by
    rw [← BitVec.getLsbD_and, h]
    exact BitVec.getLsbD_zero
  rw [applied_bit, applied_bit]
  cases hm : m.getLsbD k with
  | true =>
    rw [hm, Bool.and_true] at hk
    exact hk.symm
  | false => rfl

theorem apply_apply {fb : Memory} (h : fb.wf = true) (c p : Int) (m n : Byte) (inv : Bool) :
    apply (apply fb c p m inv) c p n inv = apply fb c p (m ||| n) inv := by
  have h1 := apply_wf h c p m inv
  refine Memory.ext_of_wf (apply_wf h1 ..) (apply_wf h ..) fun a => ?_
  rw [read_apply h1, read_apply h, read_apply h]
  split
  · exact applied_applied inv m n _
  · rfl

theorem fbAndNot_fbOr {fb : Memory} (h : fb.wf = true) {c p : Int} {m : Byte} (hm : fbGet fb c p &&& m = 0) :
    fbAndNot (fbOr fb c p m) c p m = fb := by
  rw [fbAndNot_eq, fbOr_eq]
  have h1 := apply_wf h c p m false
  refine Memory.ext_of_wf (apply_wf h1 ..) h fun a => ?_
  rw [read_apply h1, read_apply h]
  split
  · next hc =>
    obtain ⟨hr, rfl⟩ := hc
    rw [fbGet, if_pos hr] at hm
    exact applied_true_applied_false hm
  · rfl

/-- Settles O27: the order of two applications does not matter because both orders are the union of the masks. -/
theorem storePrimitiveLaws : Obligations.StorePrimitiveLaws := by
  intro fb c p m n inv h
  refine ⟨apply_apply h c p m n inv, ?_, fbAndNot_fbOr h⟩
  rw [apply_apply h, apply_apply h, BitVec.or_comm]

/-! ### What a drawing command does (20_memory R59) -/

/-- `t` comes from `s` by Apply calls with INV = `inv` on the framebuffer and ADDR / DATA pairs appended to the history; nothing
is said of the rest. -/
structure DrawnFrom (inv : Bool) (s t : State) : Prop where
  fb : ∃ ws, t.fb = applyAll inv ws s.fb
  history : ∃ ts, t.history = s.history ++ ts ∧ historyPaired ts = true

theorem DrawnFrom.refl (inv : Bool) (s : State) : DrawnFrom inv s s :=
  ⟨⟨[], rfl⟩, [], (List.append_nil _).symm, rfl⟩

theorem DrawnFrom.trans {inv : Bool} {s t u : State} (h : DrawnFrom inv s t) (k : DrawnFrom inv t u) :
    DrawnFrom inv s u := by
  obtain ⟨⟨ws, hws⟩, ts, hts, hp⟩ := h
  obtain ⟨⟨vs, hvs⟩, us, hus, hq⟩ := k
  exact ⟨⟨ws ++ vs, by rw [hvs, hws, applyAll_append]⟩,
    ts ++ us, by rw [hus, hts, List.append_assoc], historyPaired_append hp hq⟩

theorem charAtCursor_drawnFrom (ch : Byte) (inv : Bool) (s : State) : DrawnFrom inv s (charAtCursor ch inv s) := by
  rw [charAtCursor_eq]
  exact ⟨⟨_, rfl⟩, _, rfl, autoTransactions_paired ..⟩

theorem charAtXY_drawnFrom (ch : Byte) (x y : Int) (inv : Bool) (s : State) :
    DrawnFrom inv s (charAtXY ch x y inv s) := by
  obtain ⟨ws, ts, h, hp, -⟩ := charAtXY_form ch x y inv s
  rw [h]
  exact ⟨⟨ws, rfl⟩, ts, rfl, hp⟩

theorem drawBox_drawnFrom (writes : Box → List MaskWrite) (inv : Bool) (b : Box) (s : State) :
    DrawnFrom inv s (drawBox writes inv b s) := by
  obtain ⟨ws, ts, h, hp, -⟩ := drawBox_form writes inv b s
  rw [h]
  exact ⟨⟨ws, rfl⟩, ts, rfl, hp⟩

/-- Every drawing command draws with its own INV flag. -/
theorem effect_drawnFrom {i : Instr} (hd : draws i = true) (bytes : List Byte) (s : State) :
    DrawnFrom (inverted i) s (effect i bytes s) := by
  cases i with
  | putchar inv ch => exact charAtCursor_drawnFrom ch inv s
  | printstr inv absent len =>
    cases absent with
    | true => exact .refl inv s
    | false =>
      exact printAtCursor_rel (DrawnFrom.refl inv) DrawnFrom.trans inv
        (fun ch s => charAtCursor_drawnFrom ch inv s) bytes s
  | putcharxy inv ch x y => exact charAtXY_drawnFrom ch _ _ inv s
  | printstrxy inv absent len x y =>
    cases absent with
    | true => exact .refl inv s
    | false =>
      exact printAtXY_rel (DrawnFrom.refl inv) DrawnFrom.trans inv
        (fun ch x y s => charAtXY_drawnFrom ch x y inv s) _ _ bytes s
  | drawrect => exact drawBox_drawnFrom _ _ _ s
  | fillrect => exact drawBox_drawnFrom _ _ _ s
  | init | setcursor | clear | clearflush | measure | flushall | flushregion | setmode | getb | setb | orb | andnb =>
    exact absurd hd Bool.false_ne_true

@[simp] theorem taken_fb (i : Instr) (s : State) : (taken i s).fb = s.fb := rfl

@[simp] theorem taken_history (i : Instr) (s : State) : (taken i s).history = s.history := rfl

/-- Settles O20: a pixel is as before unless a write hits it, which makes it 1, or 0 if inverted. -/
theorem drawingOnlySetsOrOnlyClears : Obligations.DrawingOnlySetsOrOnlyClears := by
  intro i s t hd hwf h x y hx hy
  obtain ⟨rfl, -⟩ := exec_next h
  obtain ⟨⟨ws, hws⟩, -⟩ := effect_drawnFrom hd (s.str.take (payloadLength i)) (taken i s)
  rw [State.setBusy_fb, hws, taken_fb, pixel_applyAll _ ws hwf hx hy]
  split
  · exact .inr rfl
  · exact .inl rfl

/-! ### The invariant (20_memory R51, R54, R65, R66; 10_state R21, R30) -/

/-- The framebuffer stays canonical, and the history grows by ADDR / DATA pairs only. -/
structure KeepsForm (s t : State) : Prop where
  fb : s.fb.wf = true → t.fb.wf = true
  history : ∃ ts, t.history = s.history ++ ts ∧ historyPaired ts = true

theorem DrawnFrom.keepsForm {inv : Bool} {s t : State} (h : DrawnFrom inv s t) : KeepsForm s t := by
  obtain ⟨⟨ws, hws⟩, hh⟩ := h
  exact ⟨fun hwf => by rw [hws]; exact applyAll_wf inv ws hwf, hh⟩

/-- What emits nothing and keeps the framebuffer canonical. -/
theorem KeepsForm.of_quiet {s t : State} (hh : t.history = s.history) (hfb : s.fb.wf = true → t.fb.wf = true) :
    KeepsForm s t :=
  ⟨hfb, [], by rw [hh, List.append_nil], rfl⟩

/-- What ends with a flush, of any bounds, and keeps the framebuffer canonical. -/
theorem KeepsForm.of_flush {s t : State} {c0 c1 p0 p1 : Int}
    (hh : t.history = s.history ++ flushTransactions t.fb c0 c1 p0 p1) (hfb : s.fb.wf = true → t.fb.wf = true) :
    KeepsForm s t :=
  ⟨hfb, _, hh, flushTransactions_paired ..⟩

theorem effect_keepsForm (i : Instr) (bytes : List Byte) (s : State) : KeepsForm s (effect i bytes s) := by
  cases i with
  | putchar | printstr | putcharxy | printstrxy | drawrect | fillrect => exact (effect_drawnFrom rfl bytes s).keepsForm
  | init | clear => exact .of_quiet rfl fun _ => Memory.wf_clear
  | setcursor | setmode => exact .of_quiet rfl id
  | setb => exact .of_quiet rfl fun h => fbSet_wf h ..
  | orb => exact .of_quiet rfl fun h => apply_wf h _ _ _ false
  | andnb => exact .of_quiet rfl fun h => apply_wf h _ _ _ true
  | clearflush => exact .of_flush rfl fun _ => Memory.wf_clear
  | flushall | flushregion => exact .of_flush rfl id
  | measure absent len =>
    refine .of_quiet ?_ fun h => by rwa [effect_measure_fb]
    cases absent <;> rfl
  | getb col page =>
    refine .of_quiet ?_ fun h => by rwa [effect_getb_fb]
    simp only [effect]
    split <;> rfl

/-- A completed command leaves BUSY at 0 and keeps the rest of the invariant; BUSY before it is of no account, because the
acceptance of its frame has raised it (10_state R30). -/
theorem exec_invariant {i : Instr} {s t : State} (hs : Invariant (s.setBusy false)) (h : exec i s = .next t) :
    Invariant t ∧ t.params = s.params := by
  obtain ⟨hwf, hparams, hpaired, -⟩ := hs
  obtain ⟨rfl, -⟩ := exec_next h
  have hp := (effect_keeps i (s.str.take (payloadLength i)) (taken i s)).params
  obtain ⟨hfb, ts, hts, hq⟩ := effect_keepsForm i (s.str.take (payloadLength i)) (taken i s)
  refine ⟨⟨hfb hwf, ?_, ?_, rfl⟩, hp⟩
  · rw [State.setBusy_params, hp]
    exact hparams
  · rw [State.setBusy_history, hts, taken_history]
    exact historyPaired_append hpaired hq

/-- A reset establishes the invariant from any state with parameters the spec allows (70 R280 to R284). -/
theorem hardwareReset_invariant {s : State} (h : paramsWf s.params = true) :
    Invariant (hardwareReset s) ∧ (hardwareReset s).params = s.params :=
  ⟨⟨hardwareReset_fb_wf s, h, rfl, rfl⟩, rfl⟩

/-- Settles O24, over the cases of a step: a reset establishes the invariant anew, idling and an illegal frame leave what it speaks
of, a command keeps it. -/
theorem stepKeepsInvariant : Obligations.StepKeepsInvariant := by
  intro s t hs h
  obtain ⟨hwf, hparams, hpaired, hbusy⟩ := hs
  obtain ⟨-, rfl⟩ | ⟨-, rfl⟩ | ⟨-, -, -, ⟨-, rfl⟩ | ⟨f, rest, -, ⟨e, -, rfl⟩ | ⟨i, -, hi⟩⟩⟩ := step_cases h
  · exact hardwareReset_invariant hparams
  · obtain ⟨k, hk, hkp, -, -⟩ := resetInCommand_eq s
    rw [hk, ← hkp]
    exact hardwareReset_invariant (hkp ▸ hparams)
  · exact ⟨⟨hwf, hparams, hpaired, hbusy⟩, rfl⟩
  · exact ⟨⟨hwf, hparams, hpaired, rfl⟩, rfl⟩
  · exact exec_invariant (s := accept rest s) ⟨hwf, hparams, hpaired, rfl⟩ hi

/-! ### The mirror of a region (20_memory R72, 44 R230, R233) -/

theorem idx_natCast (c p : Nat) : idx c p = p * 128 + c := by
  unfold idx
  omega

/-- The bytes of one page of a flush: column `c` at place `c - a`. -/
theorem span_map_getElem? {α : Type} (g : Int → α) {a b : Int} {c : Nat} (h0 : 0 ≤ a) (h : a ≤ c) :
    ((span a b).map g)[c - a.toNat]? = if (c : Int) ≤ b then some (g c) else none := by
  have hc : a + ((c - a.toNat : Nat) : Int) = c := by omega
  split
  · next hb => rw [List.getElem?_map, span_getElem? (by omega), hc, Option.map_some]
  · next hb => exact List.getElem?_eq_none (by rw [List.length_map, span_length]; omega)

/-- The ADDR and the DATA of one page of a flush of the columns cs to ce (44 R230). -/
def pagePair (fb : Memory) (cs ce p : Int) : List Transaction :=
  [.addr cs.toNat p.toNat, .data ((span cs ce).map fun c => fb.read (idx c p))]

theorem flushTransactions_eq_pagePairs {fb : Memory} {c0 c1 p0 p1 : Int}
    (h : ¬(max c0 0 > min c1 127 ∨ max p0 0 > min p1 7)) :
    flushTransactions fb c0 c1 p0 p1 =
      (span (max p0 0) (min p1 7)).flatMap (pagePair fb (max c0 0) (min c1 127)) :=
  flushTransactions_pages h

/-- One page of a flush before other transactions: what they do not send, it sends. -/
theorem lastSent_pagePair_append (fb : Memory) {cs ce p : Int} (hcs : 0 ≤ cs) (hp : 0 ≤ p) (rest : List Transaction)
    (c q : Nat) :
    lastSent (pagePair fb cs ce p ++ rest) c q =
      (lastSent rest c q).or
        (if p = (q : Int) ∧ cs ≤ c ∧ (c : Int) ≤ ce then some (fb.read (idx c q)) else none) := by
  have hpage : (if p.toNat = q ∧ cs.toNat ≤ c then
        ((span cs ce).map fun c => fb.read (idx c p))[c - cs.toNat]? else none) =
      if p = (q : Int) ∧ cs ≤ c ∧ (c : Int) ≤ ce then some (fb.read (idx c q)) else none := by
    by_cases hq : p = (q : Int) ∧ cs ≤ c
    · obtain ⟨rfl, hc⟩ := hq
      rw [if_pos (by omega), span_map_getElem? _ hcs hc]
      simp [hc]
    · rw [if_neg (by omega), if_neg (by omega)]
  rw [← hpage]
  simp only [pagePair, List.cons_append, List.nil_append, lastSent]
  cases lastSent rest c q <;> rfl

/-- Pages one after the other send the framebuffer's byte to each of their cells within the columns, and nothing elsewhere. -/
theorem lastSent_pagePairs (fb : Memory) {cs ce : Int} (hcs : 0 ≤ cs) (c q : Nat) {pages : List Int}
    (h : ∀ p ∈ pages, 0 ≤ p) :
    lastSent (pages.flatMap (pagePair fb cs ce)) c q =
      if (q : Int) ∈ pages ∧ cs ≤ c ∧ (c : Int) ≤ ce then some (fb.read (idx c q)) else none := by
  induction pages with
  | nil => simp [lastSent]
  | cons p pages ih =>
    rw [List.flatMap_cons, lastSent_pagePair_append fb hcs (h p (List.mem_cons_self ..)),
      ih fun p' hp' => h p' (List.mem_cons_of_mem _ hp')]
    by_cases hc : cs ≤ c ∧ (c : Int) ≤ ce
    · by_cases hm : (q : Int) ∈ pages <;> simp [hc, hm, eq_comm]
    · simp [hc]

/-- What a flush sends to a cell that exists: the framebuffer's byte if the cell is in the region, else nothing. -/
theorem lastSent_flushTransactions (fb : Memory) (c0 c1 p0 p1 : Int) {c p : Nat} (hc : c < 128) (hp : p < 8) :
    lastSent (flushTransactions fb c0 c1 p0 p1) c p =
      if c0 ≤ c ∧ c ≤ c1 ∧ p0 ≤ p ∧ p ≤ p1 then some (fb.read (p * 128 + c)) else none := by
  by_cases h : max c0 0 > min c1 127 ∨ max p0 0 > min p1 7
  · rw [flushTransactions_empty h, if_neg (by omega)]
    rfl
  · have hpages : ∀ q ∈ span (max p0 0) (min p1 7), 0 ≤ q := fun q hq => by
      rw [mem_span] at hq
      omega
    rw [flushTransactions_eq_pagePairs h, lastSent_pagePairs fb (by omega) c p hpages, idx_natCast]
    refine if_congr ?_ rfl rfl
    rw [mem_span]
    omega

/-- Settles O53: a FLUSHREGION completes with the transactions of its flush. -/
theorem flushregionMirrorsTheRegion : Obligations.FlushregionMirrorsTheRegion := by
  intro s c0 p0 c1 p1 hs
  refine ⟨flushTransactions s.fb c0.toInt c1.toInt p0.toInt p1.toInt, ?_, fun c p hc hp =>
    lastSent_flushTransactions s.fb _ _ _ _ hc hp⟩
  exact complete_of_accepting hs _

end Sys2Proof.Machine

/-! PROOFS. The encoding's family (30_encoding): a frame matches a row of the opcode map exactly when it is the frame of what the
row builds from it, and from that how the decoder and the encoder agree; the unassigned opcodes, the announced payload, the flush
identities, and the run of a list of presented commands. -/

namespace Sys2Proof

/-! ### The flags and the low byte of a frame made of fields (30_encoding R81, R82) -/

theorem invBit_frame (op flags : Byte) (a b c d : Half) : invBit (frame op flags a b c d) = flags.getLsbD 0 := by
  rw [invBit, flagsField_frame]

theorem absentBit_frame (op flags : Byte) (a b c d : Half) :
    absentBit (frame op flags a b c d) = flags.getLsbD 1 := by
  rw [absentBit, flagsField_frame]

theorem autoBit_frame (op flags : Byte) (a b c d : Half) : autoBit (frame op flags a b c d) = flags.getLsbD 2 := by
  rw [autoBit, flagsField_frame]

theorem lowField_frame (op flags : Byte) (a b c d : Half) :
    lowField (frame op flags a b c d) = c.extractLsb' 0 8 := by
  rw [lowField, cField_frame]

/-! ### Reserved bits (30_encoding R84, R101) -/

theorem and_allOnes_byte (v : Byte) : v &&& 255#8 = v := BitVec.and_allOnes

theorem and_allOnes_half (v : Half) : v &&& 65535#16 = v := BitVec.and_allOnes

/-- Field C is its low byte alone iff its high byte is 0. -/
theorem lowOnly_eq_iff (c : Half) : lowOnly (c.extractLsb' 0 8) = c ↔ c &&& 0xFF00 = 0 :=
  ⟨fun h => h ▸ lowOnly_mask _, lowOnly_of_high_zero⟩

/-- FLAGS is made of the bits a format uses (INV; INV and ABSENT; ABSENT; AUTOBIT) iff its other bits are 0. -/
theorem flagsOf_eq_iff (v : Byte) :
    (flagsOf (v.getLsbD 0) false false = v ↔ v &&& 0xFE = 0) ∧
    (flagsOf (v.getLsbD 0) (v.getLsbD 1) false = v ↔ v &&& 0xFC = 0) ∧
    (flagsOf false (v.getLsbD 1) false = v ↔ v &&& 0xFD = 0) ∧
    (flagsOf false false (v.getLsbD 2) = v ↔ v &&& 0xFB = 0) := by
  revert v; decide

/-- A frame matches a row iff it is the frame of what the row builds from it: the mask covers exactly the bits that the operands
do not. Row by row, both sides become the same conditions on the six fields. -/
theorem matches_iff_encode_build {r : EncodingRow} (hr : r ∈ encodingTable) (f : Frame) :
    f &&& r.mask = r.pattern ↔ encode (r.build f) = f := by
  rw [and_eq_iff_fields, ← frame_eta f]
  generalize opField f = o, flagsField f = fl, aField f = a, bField f = b, cField f = c, dField f = d
  obtain ⟨hinv, hboth, habsent, hauto⟩ := flagsOf_eq_iff fl
  fin_cases hr <;>
    simp only [encode, opcode, opField_frame, flagsField_frame, aField_frame, bField_frame, cField_frame,
      dField_frame, invBit_frame, absentBit_frame, autoBit_frame, lowField_frame, frame_inj, lowOnly_eq_iff, hinv,
      hboth, habsent, hauto] <;>
    simp only [opField, flagsField, aField, bField, cField, dField, BitVec.reduceExtractLsb', BitVec.ofNat_eq_ofNat,
      and_allOnes_byte, and_allOnes_half, BitVec.and_zero, eq_comm (b := o), eq_comm (a := 0#8),
      eq_comm (a := 0#16), true_and, and_true]

/-! ### Operands read back (30_encoding R84, R85) -/

theorem opField_encode (i : Instr) : opField (encode i) = opcode i := by
  cases i <;> exact opField_frame ..

/-- The command whose OP a frame has, with the operands that the row's `build` takes out of it, whatever the reserved bits hold. -/
def readBack (f : Frame) : Option Instr := (rowOf (opField f)).map fun r => r.build f

/-- Every command, well formed or not, is in its frame. -/
theorem readBack_encode (i : Instr) : readBack (encode i) = some i := by
  rw [readBack, opField_encode]
  cases i <;>
    simp [rowOf, encodingTable, surfacedRows, furtherRows, opcode, encode, aField_frame, bField_frame, cField_frame,
      dField_frame, invBit_frame, absentBit_frame, autoBit_frame, lowField_frame, lowOnly_low, flagsOf_inv,
      flagsOf_absent, flagsOf_auto, -BitVec.getLsbD_eq_getElem]

theorem encode_injective : Function.Injective encode := fun i j h =>
  Option.some.inj (by rw [← readBack_encode i, h, readBack_encode])

/-- A command is built from its own frame by the row its OP selects. -/
theorem exists_row_build_encode (i : Instr) : ∃ r ∈ encodingTable, r.build (encode i) = i := by
  obtain ⟨r, hr, hb⟩ := Option.map_eq_some_iff.1 (readBack_encode i)
  exact ⟨r, (mem_of_rowOf hr).1, hb⟩

/-! ### The constraint between ABSENT and LEN (30_encoding R101) -/

theorem stringFieldsOk_iff {absent : Bool} {len : Byte} :
    stringFieldsOk absent len = true ↔ (absent = true → len = 0) := by
  cases absent <;> simp [stringFieldsOk]

/-- What a row builds is well formed iff the frame meets the constraint, which only the string rows have. -/
theorem wellFormed_build_iff {r : EncodingRow} (hr : r ∈ encodingTable) (f : Frame) :
    WellFormed (r.build f) ↔ (r.counted = true → absentBit f = true → lowField f = 0) := by
  fin_cases hr <;> simp [WellFormed, Instr.wellFormed, stringFieldsOk_iff]

/-! ### The decoder (30_encoding R90, R100 to R102) -/

theorem EncodingRow.read_eq_ok_iff {r : EncodingRow} {f : Frame} {i : Instr} :
    r.read f = .ok i ↔
      f &&& r.mask = r.pattern ∧ (r.counted = true → absentBit f = true → lowField f = 0) ∧ r.build f = i := by
  unfold EncodingRow.read
  split
  · next hm => split <;> simp_all
  · next hm => simp [hm]

theorem EncodingRow.read_ne_unassigned (r : EncodingRow) (f : Frame) : r.read f ≠ .error .unassignedOpcode := by
  unfold EncodingRow.read
  split
  · split <;> simp
  · simp

/-- A frame decodes to what the row it matches builds from it. -/
theorem decode_eq_ok_iff_row {f : Frame} {i : Instr} :
    decode f = .ok i ↔
      ∃ r ∈ encodingTable, f &&& r.mask = r.pattern ∧
        (r.counted = true → absentBit f = true → lowField f = 0) ∧ r.build f = i := by
  constructor
  · intro h
    unfold decode at h
    split at h
    · exact absurd h (by simp)
    · next r hr => exact ⟨r, (mem_of_rowOf hr).1, EncodingRow.read_eq_ok_iff.1 h⟩
  · rintro ⟨r, hr, hread⟩
    have hrow : rowOf (opField f) = some r := by rw [opField_of_match hr hread.1, rowOf_of_mem hr]
    simp only [decode, hrow]
    exact EncodingRow.read_eq_ok_iff.2 hread

/-- The decoder is the inverse of the encoder on the well-formed commands, and answers nothing else. -/
theorem decode_eq_ok_iff {f : Frame} {i : Instr} : decode f = .ok i ↔ WellFormed i ∧ encode i = f := by
  rw [decode_eq_ok_iff_row]
  constructor
  · rintro ⟨r, hr, hmatch, hlen, rfl⟩
    exact ⟨(wellFormed_build_iff hr f).2 hlen, (matches_iff_encode_build hr f).1 hmatch⟩
  · rintro ⟨hwf, rfl⟩
    obtain ⟨r, hr, hbuild⟩ := exists_row_build_encode i
    refine ⟨r, hr, ?_, ?_, hbuild⟩
    · rw [matches_iff_encode_build hr, hbuild]
    · rwa [← wellFormed_build_iff hr, hbuild]

/-- Settles O2: the frame of a well-formed command matches the row that builds the command from it. -/
theorem decodeOfEncode : Obligations.DecodeOfEncode :=
  fun _ hwf => decode_eq_ok_iff.2 ⟨hwf, rfl⟩

/-- Settles O3: the frame is that of the command it decodes to, and the encoder is injective. -/
theorem encodeOfDecode : Obligations.EncodeOfDecode := by
  intro f i h
  obtain ⟨hwf, henc⟩ := decode_eq_ok_iff.1 h
  exact ⟨hwf, henc, fun j hj => encode_injective (hj.trans henc.symm)⟩

/-- Settles O4: a frame that matches a row has that row's OP, so it matches no other. -/
theorem legalFramesAreTheTablesFrames : Obligations.LegalFramesAreTheTablesFrames := by
  refine fun f => ⟨?_, fun r hr r' hr' h h' => (opField_of_match hr h).symm.trans (opField_of_match hr' h')⟩
  simp only [decode_eq_ok_iff_row]
  constructor
  · rintro ⟨i, r, hr, hmatch, hlen, -⟩
    exact ⟨r, hr, hmatch, hlen⟩
  · rintro ⟨r, hr, hmatch, hlen⟩
    exact ⟨r.build f, r, hr, hmatch, hlen, rfl⟩

/-- A frame is refused for its OP iff the map has no row for it. -/
theorem decode_eq_unassigned_iff {f : Frame} : decode f = .error .unassignedOpcode ↔ rowOf (opField f) = none := by
  unfold decode
  cases hrow : rowOf (opField f) with
  | none => simp
  | some r => simpa using r.read_ne_unassigned f

theorem rowOf_eq_none_iff (op : Byte) : rowOf op = none ↔ op.toNat = 0x00 ∨ op.toNat = 0x0F ∨ 0x14 ≤ op.toNat := by
  revert op; decide

/-- The OP byte is bits 79 to 72. -/
theorem opField_toNat (f : Frame) : (opField f).toNat = f.toNat / 2 ^ 72 := by
  rw [opField, BitVec.extractLsb'_toNat, Nat.shiftRight_eq_div_pow]
  omega

/-- Settles O5: the map read at each of the 256 OP bytes. -/
theorem unassignedOpcodes : Obligations.UnassignedOpcodes := fun f => by
  rw [decode_eq_unassigned_iff, rowOf_eq_none_iff, opField_toNat]

theorem stringPayload_eq_ite (absent : Bool) (len : Byte) :
    stringPayload absent len = if absent = false then len.toNat else 0 := by
  cases absent <;> rfl

/-- The payload a frame announces is that of the command its row builds (30_encoding R83, R103). -/
theorem framePayload_of_row {r : EncodingRow} (hr : r ∈ encodingTable) {f : Frame} (hop : opField f = r.opcode) :
    framePayload f = payloadLength (r.build f) := by
  fin_cases hr <;> simp [framePayload, hop, payloadLength, stringPayload_eq_ite]

/-- Settles O6: the frame is ten bytes, and what follows is read by the row of its OP. -/
theorem payloadLengthFromTheFrame : Obligations.PayloadLengthFromTheFrame := by
  intro f i h
  obtain ⟨r, hr, hmatch, -, rfl⟩ := decode_eq_ok_iff_row.1 h
  rw [commandBytes, framePayload_of_row hr (opField_of_match hr hmatch)]

end Sys2Proof

namespace Sys2Proof.Machine

/-! ### The flush identities (30_encoding R106) -/

theorem execAll_cons {i : Instr} {s t : State} (h : exec i s = .next t) (rest : List Instr) :
    execAll (i :: rest) s = execAll rest t := by
  simp only [execAll, h]

theorem execAll_singleton (i : Instr) (s : State) : execAll [i] s = exec i s := by
  rw [execAll]
  cases exec i s <;> rfl

/-- The end of a command reads of the state before it the transport and the history only. -/
theorem complete_congr_left {s s' : State} (hs : s'.stalled = s.stalled) (hh : s'.history = s.history) (t : State) :
    complete s' t = complete s t := by
  simp only [complete, hs, hh]

/-- Settles O55: FLUSHALL has the bounds of the full region; CLEAR completes without a transaction, and lowering BUSY between the
two commands changes neither what is flushed nor the end. -/
theorem flushIdentities : Obligations.FlushIdentities := by
  refine fun s => ⟨rfl, ?_⟩
  have hclear : exec .clear s = .next ((s.setFb Memory.clear).setBusy false) := complete_of_quiet rfl
  rw [execAll_cons hclear, execAll_singleton]
  exact (complete_congr_left rfl rfl _).symm

/-! ### The run of presented commands (30_encoding R110, 70 R295) -/

theorem core_run_succ {s t : State} (h : step s = .next t) (k : Nat) : core.run (k + 1) s = core.run k t := by
  have h' : core.step s = .next t := h
  simp only [Host.Core.run, h']

/-- What keeps the control state moves under a change of CMD and BUSY. -/
theorem Keeps.onto_setCmd_setBusy {s t : State} (h : Keeps s t) (frames : List Frame) (b : Bool) :
    t.onto ((s.setCmd frames).setBusy b) = (t.setCmd frames).setBusy b := by
  simp only [State.onto, State.setCmd, State.setBusy, h.fault, h.str, h.past, h.rst, h.stalled, h.resets]

/-- A command completes in the same way whatever frames wait on CMD and whatever BUSY is (10_state R32). -/
theorem exec_accept {i : Instr} {s t : State} (hs : s.stalled = false) (h : exec i s = .next t) (frames : List Frame) :
    exec i (accept frames s) = .next (t.setCmd frames) := by
  obtain ⟨rfl, hp⟩ := exec_next h
  rw [exec_of_accepting (s := accept frames s) hs hp]
  have hk := effect_keeps i (s.str.take (payloadLength i)) (taken i s)
  have he := effect_onto i (s.str.take (payloadLength i)) (taken i s) (((taken i s).setCmd frames).setBusy true)
  rw [hk.onto_setCmd_setBusy] at he
  exact congrArg (fun u => Host.Outcome.next (State.setBusy u false)) he

/-- What the host owes for one command (70 R294). -/
theorem Command.wf_iff {c : Command} :
    c.wf = true ↔ WellFormed c.instr ∧ c.payload.length = payloadLength c.instr := by
  simp [Command.wf]

/-- A command whose payload is at the head of STR takes it and leaves a block that accepts. -/
theorem exec_of_payload {i : Instr} {s : State} {payload rest : List Byte} (hacc : Accepting s)
    (hs : s.stalled = false) (hlen : payload.length = payloadLength i) (hstr : s.str = payload ++ rest) :
    ∃ t, exec i s = .next t ∧ Accepting t ∧ t.stalled = false ∧ t.cmd = s.cmd ∧ t.str = rest := by
  obtain ⟨hr, hf, -⟩ := hacc
  have hp : payloadLength i ≤ s.str.length := by
    rw [hstr, List.length_append]
    omega
  have ht := exec_of_accepting hs hp
  obtain ⟨hfault, hbusy, -, hcmd, -, hrst, hstalled, -, hdrop, -⟩ := commandsKeepTheControlState i s _ ht
  refine ⟨_, ht, ⟨hrst.trans hr, hfault.trans hf, hbusy⟩, hstalled.trans hs, hcmd, ?_⟩
  rw [hdrop, hstr, ← hlen, List.drop_left]

/-- A step on the frame of a well-formed command is that command, with the frames behind it left on CMD. -/
theorem step_of_presented {i : Instr} {s t : State} (hwf : WellFormed i) (hacc : Accepting s) (hs : s.stalled = false)
    (h : exec i s = .next t) (frames : List Frame) :
    step (s.setCmd (encode i :: frames)) = .next (t.setCmd frames) := by
  rw [step_of_decode (s := s.setCmd (encode i :: frames)) hacc rfl (decode_eq_ok_iff.2 ⟨hwf, rfl⟩)]
  exact exec_accept hs h frames

/-- Commands presented exactly, in front of other frames and other payload, run in order, one a step, and leave the frames and the
payload behind them: the run is `execAll`, which looks at no frame. -/
theorem run_presented (cs : List Command) (s : State) (more : List Frame) (rest : List Byte)
    (hwf : ∀ c ∈ cs, c.wf = true) (hacc : Accepting s) (hs : s.stalled = false)
    (hstr : s.str = cs.flatMap (fun c => c.payload) ++ rest) :
    ∃ t, execAll (cs.map fun c => c.instr) s = .next t ∧
      core.run cs.length (s.setCmd (cs.map (fun c => encode c.instr) ++ more)) = .next (t.setCmd more) ∧
      Accepting t ∧ t.stalled = false ∧ t.cmd = s.cmd ∧ t.str = rest := by
  induction cs generalizing s with
  | nil => exact ⟨s, rfl, rfl, hacc, hs, rfl, hstr⟩
  | cons c cs ih =>
    obtain ⟨hcwf, hlen⟩ := Command.wf_iff.1 (hwf c (List.mem_cons_self ..))
    rw [List.flatMap_cons, List.append_assoc] at hstr
    obtain ⟨u, hu, huacc, hus, hucmd, hustr⟩ := exec_of_payload hacc hs hlen hstr
    obtain ⟨t, hexec, hrun, htacc, hts, htcmd, htstr⟩ :=
      ih u (fun c' hc' => hwf c' (List.mem_cons_of_mem _ hc')) huacc hus hustr
    exact ⟨t, (execAll_cons hu _).trans hexec, (core_run_succ (step_of_presented hcwf hacc hs hu _) _).trans hrun,
      htacc, hts, htcmd.trans hucmd, htstr⟩

/-- Settles O59: from empty channels nothing is left behind the presented commands. -/
theorem presentedCommandsRunInOrder : Obligations.PresentedCommandsRunInOrder := by
  intro cs s hwf hacc hs hcmd hstr
  obtain ⟨t, hexec, hrun, ⟨-, hfault, hbusy⟩, -, htcmd, htstr⟩ :=
    run_presented cs (s.setStr (cs.flatMap fun c => c.payload)) [] [] hwf hacc hs (List.append_nil _).symm
  have hpresent : s.present cs =
      (s.setStr (cs.flatMap fun c => c.payload)).setCmd (cs.map (fun c => encode c.instr) ++ []) := by
    simp [State.present, State.setStr, State.setCmd, hcmd, hstr]
  have ht : t.setCmd [] = t := by
    rw [← htcmd.trans hcmd]; rfl
  exact ⟨t, by rw [hpresent, hrun, ht], ⟨hbusy, hfault, htcmd.trans hcmd, htstr⟩, hexec⟩

end Sys2Proof.Machine

/-! PROOFS. The store's family (40_store): the commands that emit nothing, and the effect of CLEAR, GETB, SETB, ORB and ANDNB on
the framebuffer and the registers. -/

namespace Sys2Proof.Machine

/-! ### The commands that emit nothing (10_state R36, 40 R120, 45 R250, R251) -/

theorem effect_measure_history (absent : Bool) (len : Byte) (bytes : List Byte) (s : State) :
    (effect (.measure absent len) bytes s).history = s.history := by
  cases absent <;> rfl

theorem effect_getb_history (col page : Half) (bytes : List Byte) (s : State) :
    (effect (.getb col page) bytes s).history = s.history := by
  simp only [effect]
  split <;> rfl

/-- A command that neither draws nor flushes emits nothing, whatever AUTO is. -/
theorem effect_history_of_quiet {i : Instr} (hd : draws i = false) (hcf : i ≠ .clearflush) (hfa : i ≠ .flushall)
    (hfr : ∀ c0 p0 c1 p1, i ≠ .flushregion c0 p0 c1 p1) (bytes : List Byte) (s : State) :
    (effect i bytes s).history = s.history := by
  cases i with
  | putchar | printstr | putcharxy | printstrxy | drawrect | fillrect => exact absurd hd.symm Bool.false_ne_true
  | clearflush => exact absurd rfl hcf
  | flushall => exact absurd rfl hfa
  | flushregion c0 p0 c1 p1 => exact absurd rfl (hfr c0 p0 c1 p1)
  | measure absent len => exact effect_measure_history absent len bytes s
  | getb col page => exact effect_getb_history col page bytes s
  | init | setcursor | clear | setmode | setb | orb | andnb => rfl

/-- Settles O22: the effect of each of the nine commands leaves the history. -/
theorem quietCommandsEmitNothing : Obligations.QuietCommandsEmitNothing := by
  intro i s t hd hcf hfa hfr h
  obtain ⟨rfl, -⟩ := exec_next h
  exact effect_history_of_quiet hd hcf hfa hfr _ (taken i s)

/-! ### The store commands (40 R121 to R125) -/

/-- A command that takes no payload and emits nothing always completes, a stalled transport included (70 R293). -/
theorem exec_of_quiet {i : Instr} {s : State} (h0 : payloadLength i = 0)
    (hq : (effect i [] s).history = s.history) : exec i s = .next ((effect i [] s).setBusy false) := by
  rw [exec_eq_effect, h0, if_pos (Nat.zero_le _), taken_zero h0, List.take_zero]
  exact complete_of_quiet hq

/-- Settles O30: SETB is FbSet on its cell. -/
theorem setbWritesOneByte : Obligations.SetbWritesOneByte := by
  intro s col page v h
  refine ⟨fbSet s.fb (coord col) (coord page) v, exec_of_quiet rfl rfl, fun a => ?_⟩
  obtain ⟨hset, -, -⟩ := storePrimitivesWriteOneCell s.fb (coord col) (coord page) v a h
  exact hset

/-- Settles O31: ORB is FbOr on its cell. -/
theorem orbSetsBitsOfOneByte : Obligations.OrbSetsBitsOfOneByte := by
  intro s col page m h
  refine ⟨fbOr s.fb (coord col) (coord page) m, exec_of_quiet rfl rfl, fun a => ?_⟩
  obtain ⟨-, hor, -⟩ := storePrimitivesWriteOneCell s.fb (coord col) (coord page) m a h
  exact hor

/-- Settles O32: ANDNB is FbAndNot on its cell. -/
theorem andnbClearsBitsOfOneByte : Obligations.AndnbClearsBitsOfOneByte := by
  intro s col page m h
  refine ⟨fbAndNot s.fb (coord col) (coord page) m, exec_of_quiet rfl rfl, fun a => ?_⟩
  obtain ⟨-, -, handNot⟩ := storePrimitivesWriteOneCell s.fb (coord col) (coord page) m a h
  exact handNot

/-- Settles O28: the frame is the one CLEAR encodes to, and the cleared framebuffer lists no byte. -/
theorem clearZeroesTheFramebuffer : Obligations.ClearZeroesTheFramebuffer :=
  ⟨decode_eq_ok_iff.2 ⟨rfl, rfl⟩, fun _ => ⟨Memory.clear, exec_of_quiet rfl rfl, Memory.read_clear⟩⟩

/-- Settles O29: out of range the effect is nothing; in range FbGet reads the byte at the cell's index. -/
theorem getbReadsOneByte : Obligations.GetbReadsOneByte := by
  intro s col page
  have hexec : exec (.getb col page) s = .next ((effect (.getb col page) [] s).setBusy false) :=
    exec_of_quiet rfl (effect_getb_history col page [] s)
  refine ⟨fun hr => ?inside, fun hr => ?outside⟩
  case inside =>
    have hcell : inRange (coord col) (coord page) = true := inRange_iff.2 hr
    rw [hexec, effect, if_pos hcell, fbGet, if_pos hcell]
    rfl
  case outside =>
    have hcell : ¬inRange (coord col) (coord page) = true := inRange_iff.not.2 hr
    rw [hexec, effect, if_neg hcell]
    rfl

end Sys2Proof.Machine

/-! PROOFS. The cursor text's family (41_text_cursor): what SETCURSOR stores, the cells and the transactions of PUTCHAR, the
advance of the cursor, and PRINTSTR as its characters. -/

namespace Sys2Proof.Machine

/-! ### The absent string (30_encoding R83) and SETCURSOR (41 R140) -/

/-- Settles O33: SETCURSOR emits nothing, so it completes whatever the transport does. -/
theorem setcursorStoresItsOperands : Obligations.SetcursorStoresItsOperands :=
  fun _ _ _ => exec_of_quiet rfl rfl

theorem withString_absent (len : Byte) (s : State) (body : List Byte → State → State) :
    withString true len s body = .next (s.setBusy false) :=
  complete_of_quiet rfl

/-- Settles O38: the three string commands share the rule for an absent string. -/
theorem absentStringIsANoOp : Obligations.AbsentStringIsANoOp :=
  fun s inv len x y =>
    ⟨withString_absent len s (printAtCursor inv), withString_absent len s (printAtXY (coord x) (coord y) inv),
      withString_absent len s storeMeasure⟩

/-! ### The cells of a glyph at the cursor (41 R141, R142) -/

/-- A cell that one write of a drawing rule names, and no other, takes that write's mask. -/
theorem read_applyAll_of_unique (inv : Bool) {ws : List MaskWrite} {fb : Memory} (h : fb.wf = true) {w : MaskWrite}
    (hw : w ∈ ws) (hr : inRange w.col w.page = true) (huniq : ∀ v ∈ ws, v.col = w.col → v.page = w.page → v = w) :
    (applyAll inv ws fb).read (idx w.col w.page) = applied inv w.mask (fb.read (idx w.col w.page)) := by
  have hsame : (applyAll inv ws fb).read (idx w.col w.page) =
      (apply fb w.col w.page w.mask inv).read (idx w.col w.page) := by
    refine read_eq_of_pixels fun k hk => ?_
    obtain ⟨hc0, hc1, hp0, hp1⟩ := inRange_iff.1 hr
    have hhits : ws.any (fun v => v.hits w.col (8 * w.page + k)) = w.hits w.col (8 * w.page + k) := by
      rw [Bool.eq_iff_iff, List.any_eq_true]
      refine ⟨fun ⟨v, hv, hvk⟩ => ?_, fun hwk => ⟨w, hw, hwk⟩⟩
      obtain ⟨hcol, hpage, -⟩ := (MaskWrite.hits_iff v _ _).1 hvk
      rwa [huniq v hv hcol (by omega)] at hvk
    rw [pixel_applyAll inv ws h ⟨hc0, hc1⟩ (by omega), pixel_apply h w inv ⟨hc0, hc1⟩ (by omega), hhits]
  rw [hsame, read_apply h, if_pos ⟨hr, rfl⟩]

/-- Column `i` of a glyph at the cursor, where its cell exists. -/
theorem read_cursorWrites (inv : Bool) {fb : Memory} (h : fb.wf = true) (p : Params) (g : Fin 96) {col page : Int}
    {i : Nat} (hi : i < 5) (hr : inRange (col + i) page = true) :
    (applyAll inv (cursorWrites p g col page) fb).read (idx (col + i) page) =
      applied inv (glyph p g i) (fb.read (idx (col + i) page)) := by
  obtain ⟨-, hlt, -⟩ := inRange_iff.1 hr
  refine read_applyAll_of_unique inv h (w := ⟨col + i, page, glyph p g i⟩) (mem_cursorWrites.2 ⟨i, hi, hlt, rfl⟩) hr ?_
  intro v hv hcol _
  obtain ⟨j, -, -, rfl⟩ := mem_cursorWrites.1 hv
  obtain rfl : j = i := by simpa using hcol
  rfl

/-- A byte that is no existing cell of a glyph at the cursor is as before. -/
theorem read_cursorWrites_other (inv : Bool) {fb : Memory} (h : fb.wf = true) (p : Params) (g : Fin 96)
    {col page : Int} {a : Nat} (ha : ∀ i : Nat, i < 5 → ¬(inRange (col + i) page = true ∧ a = idx (col + i) page)) :
    (applyAll inv (cursorWrites p g col page) fb).read a = fb.read a := by
  refine read_applyAll_other inv _ h fun w hw => ?_
  obtain ⟨i, hi, -, rfl⟩ := mem_cursorWrites.1 hw
  exact ha i hi

/-- The place in the font of the glyph drawn at the cursor: the character's own, or the space's (20_memory R63, 41 R141). -/
theorem cursorGlyph_address (ch : Byte) (i : Nat) :
    ((glyphSlot ch).getD 0).val * 5 + i =
      if 0x20 ≤ ch.toNat ∧ ch.toNat ≤ 0x7F then (ch.toNat - 0x20) * 5 + i else i := by
  cases hg : glyphSlot ch with
  | none =>
    have := glyphSlot_eq_none.1 hg
    rw [if_neg (by omega)]
    simp
  | some g =>
    obtain ⟨h0, h1, hval⟩ := glyphSlot_eq_some.1 hg
    rw [if_pos ⟨h0, h1⟩, Option.getD_some, hval]

/-! ### PUTCHAR (41 R141 to R144) -/

theorem exec_putchar_of_accepting {s : State} (hs : s.stalled = false) (inv : Bool) (ch : Byte) :
    exec (.putchar inv ch) s = .next ((charAtCursor ch inv s).setBusy false) :=
  complete_of_accepting hs _

theorem exec_putchar_next {s t : State} {inv : Bool} {ch : Byte} (h : exec (.putchar inv ch) s = .next t) :
    t = (charAtCursor ch inv s).setBusy false :=
  (complete_next h).1

/-- Settles O34: the writes at the cursor are at five different cells, and the glyph's bytes are the font port's. -/
theorem putcharDrawsAtTheCursor : Obligations.PutcharDrawsAtTheCursor := by
  intro s inv ch hs hwf
  refine ⟨_, _, (exec_putchar_of_accepting hs inv ch).trans (by rw [charAtCursor_eq]; rfl), ?cells, ?others⟩
  case cells =>
    intro i a g hi hfont hc0 hc1 hp0 hp1 ha
    rw [← cursorGlyph_address] at hfont
    obtain rfl : a = idx (s.curCol.toInt + i) s.curPage.toInt := by unfold idx; omega
    rw [← glyph_of_font hfont]
    exact read_cursorWrites inv hwf s.params _ hi (inRange_iff.2 ⟨hc0, hc1, hp0, hp1⟩)
  case others =>
    intro a ha
    refine read_cursorWrites_other inv hwf s.params _ fun i hi ⟨hr, he⟩ => ha i hi ?_
    obtain ⟨hc0, hc1, hp0, hp1⟩ := inRange_iff.1 hr
    refine ⟨hc0, hc1, hp0, hp1, ?_⟩
    rw [he, idx]
    exact Int.toNat_of_nonneg (by omega)

theorem span_self (p : Int) : span p p = [p] := by
  simp [span]

/-- A flush within one page: one pair if the page exists and some column does, else nothing (44 R230). -/
theorem flushTransactions_onePage (fb : Memory) (c0 c1 p : Int) :
    flushTransactions fb c0 c1 p p =
      if 0 ≤ p ∧ p < 8 ∧ max c0 0 ≤ min c1 127 then pagePair fb (max c0 0) (min c1 127) p else [] := by
  split
  · next h =>
    obtain ⟨hp0, hp1, hc⟩ := h
    have hpage : span (max p 0) (min p 7) = [p] := by
      rw [max_eq_left hp0, min_eq_left (by omega), span_self]
    rw [flushTransactions_eq_pagePairs (by omega), hpage, List.flatMap_singleton]
  · next h => exact flushTransactions_empty (by omega)

/-- Settles O35: the flush of PUTCHAR is within the cursor's page. -/
theorem putcharFlushesItsSpan : Obligations.PutcharFlushesItsSpan := by
  intro s t inv ch h
  obtain rfl := exec_putchar_next h
  rw [charAtCursor_eq]
  refine congrArg (s.history ++ ·) ?_
  cases hauto : s.auto with
  | false => rfl
  | true =>
    refine (flushTransactions_onePage _ _ _ _).trans (if_congr ?_ rfl rfl)
    simp only [coord, true_and]
    omega

theorem toInt_wrap16 (v : Int) : (wrap16 v).toInt = v.bmod 65536 := BitVec.toInt_ofInt v

/-- Settles O36: a cursor column is below 2^15, so 6 more is reduced at most once. -/
theorem cursorAdvancesBySix : Obligations.CursorAdvancesBySix := by
  intro s t inv ch h
  obtain rfl := exec_putchar_next h
  rw [charAtCursor_eq]
  have hlo : -32768 ≤ s.curCol.toInt := s.curCol.le_toInt
  have hhi : s.curCol.toInt < 32768 := s.curCol.toInt_lt
  refine (toInt_wrap16 (s.curCol.toInt + 6)).trans ?_
  rw [Int.bmod_def]
  split <;> split <;> omega

/-! ### PRINTSTR (41 R150) -/

/-- PRINTSTR of a payload at the head of STR. -/
theorem exec_printstr_of_payload {s : State} {len : Byte} {bytes rest : List Byte} (hs : s.stalled = false)
    (hstr : s.str = bytes ++ rest) (hlen : bytes.length = len.toNat) (inv : Bool) :
    exec (.printstr inv false len) s = .next ((printAtCursor inv bytes (s.setStr rest)).setBusy false) := by
  have hp : payloadLength (.printstr inv false len) = bytes.length := hlen.symm
  rw [exec_of_accepting hs (by rw [hp, hstr, List.length_append]; omega), taken, hp, hstr, List.take_left,
    List.drop_left]
  rfl

/-- A character at the cursor reads no BUSY (10_state R32). -/
theorem charAtCursor_setBusy (ch : Byte) (inv : Bool) (s : State) (b : Bool) :
    charAtCursor ch inv (s.setBusy b) = (charAtCursor ch inv s).setBusy b := by
  rw [charAtCursor_eq, charAtCursor_eq]
  rfl

/-- The PUTCHARs of a string are its characters at the cursor; BUSY falls after each and no character reads it. -/
theorem execAll_putchars (inv : Bool) (bytes : List Byte) {s : State} (hs : s.stalled = false) :
    execAll (bytes.map fun ch => .putchar inv ch) (s.setBusy false) =
      .next ((printAtCursor inv bytes s).setBusy false) := by
  induction bytes generalizing s with
  | nil => rfl
  | cons ch rest ih =>
    have hstep : exec (.putchar inv ch) (s.setBusy false) = .next ((charAtCursor ch inv s).setBusy false) :=
      (exec_putchar_of_accepting (s := s.setBusy false) hs inv ch).trans (by rw [charAtCursor_setBusy]; rfl)
    rw [List.map_cons, execAll_cons hstep, ih ((charAtCursor_keeps ch inv s).stalled.trans hs), printAtCursor]

/-- Two advances of the cursor, each wrapped, are one (41 R143). -/
theorem wrap16_coord_wrap16_add (v d : Int) : wrap16 (coord (wrap16 v) + d) = wrap16 (v + d) := by
  rw [wrap16, wrap16, wrap16, coord, BitVec.ofInt_add, BitVec.ofInt_toInt, ← BitVec.ofInt_add]

theorem printAtCursor_curCol (inv : Bool) (bytes : List Byte) (s : State) :
    (printAtCursor inv bytes s).curCol = wrap16 (coord s.curCol + 6 * bytes.length) := by
  induction bytes generalizing s with
  | nil => simp [printAtCursor, wrap16, coord]
  | cons ch rest ih =>
    have hcol : (charAtCursor ch inv s).curCol = wrap16 (coord s.curCol + 6) := by rw [charAtCursor_eq]
    rw [printAtCursor, ih, hcol, wrap16_coord_wrap16_add, List.length_cons]
    congr 1
    push_cast
    ring

/-- Settles O37: PRINTSTR takes its payload and is then the characters at the cursor, as its PUTCHARs are. -/
theorem printstrIsPutcharPerCharacter : Obligations.PrintstrIsPutcharPerCharacter := by
  intro s inv len bytes rest hs hstr hlen
  exact ⟨_, exec_printstr_of_payload hs hstr hlen inv, execAll_putchars inv bytes (s := s.setStr rest) hs,
    (printAtCursor_sameButCurCol inv bytes (s.setStr rest)).curPage, printAtCursor_curCol inv bytes (s.setStr rest)⟩

end Sys2Proof.Machine

/-! PROOFS. The pixel text's family (42_text_xy): the pixels and the transactions of PUTCHARXY, PRINTSTRXY as the characters of its
walk, and the function Measure line by line. -/

namespace Sys2Proof.Machine

/-! ### The characters that are not drawn (42 R161, R162) -/

/-- The character has no glyph, or its position is off the canvas (42 R161, R162). -/
def XyNoOp (ch : Byte) (x y : Int) : Prop :=
  ch.toNat < 0x20 ∨ 0x7F < ch.toNat ∨ x ≤ -5 ∨ 133 ≤ x ∨ y ≤ -8 ∨ 72 ≤ y

theorem xyNoOp_iff {ch : Byte} {x y : Int} : XyNoOp ch x y ↔ glyphSlot ch = none ∨ offCanvas x y = true := by
  rw [glyphSlot_eq_none, offCanvas_iff, or_assoc, XyNoOp]

theorem charAtXY_of_xyNoOp {ch : Byte} {x y : Int} (h : XyNoOp ch x y) (inv : Bool) (s : State) :
    charAtXY ch x y inv s = s :=
  charAtXY_skip (xyNoOp_iff.1 h) inv s

/-- A character that is drawn has a glyph, and the position is on the canvas. -/
theorem exists_glyphSlot_of_not_xyNoOp {ch : Byte} {x y : Int} (h : ¬XyNoOp ch x y) :
    ∃ g, glyphSlot ch = some g ∧ offCanvas x y = false := by
  rw [xyNoOp_iff, not_or, Bool.not_eq_true] at h
  obtain ⟨hslot, hon⟩ := h
  obtain ⟨g, hg⟩ := Option.ne_none_iff_exists'.1 hslot
  exact ⟨g, hg, hon⟩

/-! ### PUTCHARXY (42 R160) -/

theorem exec_putcharxy_of_accepting {s : State} (hs : s.stalled = false) (inv : Bool) (ch : Byte) (x y : Half) :
    exec (.putcharxy inv ch x y) s = .next ((charAtXY ch x.toInt y.toInt inv s).setBusy false) :=
  complete_of_accepting hs _

theorem exec_putcharxy_next {s t : State} {inv : Bool} {ch : Byte} {x y : Half}
    (h : exec (.putcharxy inv ch x y) s = .next t) : t = (charAtXY ch x.toInt y.toInt inv s).setBusy false :=
  (complete_next h).1

/-- Settles O40: what is not drawn emits nothing, so the command completes whatever the transport does. -/
theorem putcharxyNoOps : Obligations.PutcharxyNoOps := by
  intro s inv ch x y h
  have hskip : effect (.putcharxy inv ch x y) [] s = s := charAtXY_of_xyNoOp h inv s
  rw [exec_of_quiet rfl (by rw [hskip]), hskip]
  rfl

/-! ### The pixels of a glyph (42 R164 to R167, R169) -/

/-- The pixels of a character in terms of its glyph (20_memory R62, R63). -/
theorem glyphPixel_iff {p : Params} {ch : Byte} {g : Fin 96} (hg : glyphSlot ch = some g) (x y px py : Int) :
    glyphPixel p ch x y px py ↔
      0 ≤ px - x ∧ px - x ≤ 4 ∧ 0 ≤ py - y ∧ py - y ≤ 7 ∧
        (glyph p g (px - x).toNat).getLsbD (py - y).toNat = true ∧
        ¬(y % 8 ≠ 0 ∧ (p.lowerSuppressFrom : Int) ≤ y / 8 + 1 ∧ 8 * (y / 8 + 1) ≤ py) := by
  obtain ⟨hlo, hhi, hval⟩ := glyphSlot_eq_some.1 hg
  rw [glyph_bit_iff, hval, glyphPixel, and_iff_right hlo, and_iff_right hhi]

/-- In the page-aligned regime the rows of the one page are the rows of the glyph, and none is suppressed (42 R164). -/
theorem alignedWrites_hits_iff_glyphPixel {p : Params} {ch : Byte} {g : Fin 96} (hg : glyphSlot ch = some g)
    {x y px py : Int} (hy : y % 8 = 0) (hpx : 0 ≤ px ∧ px < 128) :
    (alignedWrites p g x (y / 8)).any (fun w => w.hits px py) = true ↔ glyphPixel p ch x y px py := by
  rw [alignedWrites_hits hpx, glyphPixel_iff hg]
  have hpage : y / 8 = py / 8 ↔ 0 ≤ py - y ∧ py - y ≤ 7 := by omega
  have hrow : y / 8 = py / 8 → (py % 8).toNat = (py - y).toNat := by omega
  constructor
  · rintro ⟨h0, h4, hp, hbit⟩
    exact ⟨h0, h4, (hpage.1 hp).1, (hpage.1 hp).2, hrow hp ▸ hbit, fun hsup => hsup.1 hy⟩
  · rintro ⟨h0, h4, hr0, hr7, hbit, -⟩
    have hp := hpage.2 ⟨hr0, hr7⟩
    exact ⟨h0, h4, hp, hrow hp ▸ hbit⟩

/-- In the page-crossing regime the rows above the page boundary are the upper write's, those below it the lower write's; only the
lower write can be suppressed on the screen (42 R165 to R167). -/
theorem splitWrites_hits_iff_glyphPixel {p : Params} {ch : Byte} {g : Fin 96} (hg : glyphSlot ch = some g)
    {x y px py : Int} (hpy : 0 ≤ py) :
    (splitWrites p g x (y / 8) (y % 8).toNat).any (fun w => w.hits px py) = true ↔ glyphPixel p ch x y px py := by
  rw [splitWrites_hits hpy, glyphPixel_iff hg]
  constructor
  · rintro ⟨h0, h4, ⟨hp, hs, hbit⟩ | ⟨hp, hlsf, hbit⟩⟩
    · have hrow : (py % 8).toNat - (y % 8).toNat = (py - y).toNat := by omega
      exact ⟨h0, h4, by omega, by omega, hrow ▸ hbit, by omega⟩
    · have hrow : 8 - (y % 8).toNat + (py % 8).toNat = (py - y).toNat := by omega
      rw [hrow] at hbit
      have hlt := BitVec.lt_of_getLsbD hbit
      exact ⟨h0, h4, by omega, by omega, hbit, by omega⟩
  · rintro ⟨h0, h4, hr0, hr7, hbit, hsup⟩
    refine ⟨h0, h4, ?_⟩
    by_cases hp : y / 8 = py / 8
    · have hrow : (py - y).toNat = (py % 8).toNat - (y % 8).toNat := by omega
      exact .inl ⟨hp, by omega, hrow ▸ hbit⟩
    · have hrow : (py - y).toNat = 8 - (y % 8).toNat + (py % 8).toNat := by omega
      exact .inr ⟨by omega, by omega, hrow ▸ hbit⟩

/-- The writes of a glyph hit its pixels on the screen (42 R169). -/
theorem xyWrites_hits_iff_glyphPixel {p : Params} {ch : Byte} {g : Fin 96} (hg : glyphSlot ch = some g)
    (x y : Int) {px py : Int} (hpx : 0 ≤ px ∧ px < 128) (hpy : 0 ≤ py) :
    (xyWrites p g x y).any (fun w => w.hits px py) = true ↔ glyphPixel p ch x y px py := by
  unfold xyWrites
  split
  · exact alignedWrites_hits_iff_glyphPixel hg (by omega) hpx
  · exact splitWrites_hits_iff_glyphPixel hg hpy

/-- A character that is not drawn has no pixel on the screen. -/
theorem not_glyphPixel_of_xyNoOp {p : Params} {ch : Byte} {x y px py : Int} (h : XyNoOp ch x y)
    (hpx : 0 ≤ px ∧ px < 128) (hpy : 0 ≤ py ∧ py < 64) : ¬glyphPixel p ch x y px py := by
  rintro ⟨hlo, hhi, hc0, hc4, hr0, hr7, -⟩
  unfold XyNoOp at h
  omega

/-- The pixel law of CharAtXY (42 R169). -/
theorem pixel_charAtXY (ch : Byte) (x y : Int) (inv : Bool) {s : State} (hwf : s.fb.wf = true) {px py : Int}
    (hpx : 0 ≤ px ∧ px < 128) (hpy : 0 ≤ py ∧ py < 64) :
    (glyphPixel s.params ch x y px py → pixel (charAtXY ch x y inv s).fb px py = !inv) ∧
      (¬glyphPixel s.params ch x y px py → pixel (charAtXY ch x y inv s).fb px py = pixel s.fb px py) := by
  by_cases hno : XyNoOp ch x y
  · rw [charAtXY_of_xyNoOp hno]
    exact ⟨fun h => absurd h (not_glyphPixel_of_xyNoOp hno hpx hpy), fun _ => rfl⟩
  · obtain ⟨g, hg, hon⟩ := exists_glyphSlot_of_not_xyNoOp hno
    rw [charAtXY_draw hg hon, ← xyWrites_hits_iff_glyphPixel hg x y hpx hpy.1, pixel_applyAll inv _ hwf hpx hpy]
    exact ⟨fun h => if_pos h, fun h => if_neg h⟩

/-- Settles O39: PUTCHARXY completes, and its pixels are those of CharAtXY. -/
theorem putcharxyPixels : Obligations.PutcharxyPixels := by
  intro s inv ch x y hs hwf
  refine ⟨(charAtXY ch x.toInt y.toInt inv s).fb, (charAtXY ch x.toInt y.toInt inv s).history, ?frame,
    fun px py hpx hpy => pixel_charAtXY ch x.toInt y.toInt inv hwf hpx hpy⟩
  obtain ⟨ws, ts, hform, -, -⟩ := charAtXY_form ch x.toInt y.toInt inv s
  rw [exec_putcharxy_of_accepting hs, hform]
  rfl

/-! ### The transactions of a glyph (42 R168) -/

/-- The pages that exist of those from `a` to `b` (44 R230). -/
theorem filter_span (a b lo hi : Int) :
    (span a b).filter (fun p => decide (lo ≤ p ∧ p ≤ hi)) = span (max a lo) (min b hi) := by
  have hsorted : ∀ a b : Int, (span a b).Pairwise (· < ·) := fun a b =>
    List.pairwise_map.2 (List.pairwise_lt_range.imp fun h => by omega)
  refine List.Pairwise.eq_of_mem_iff ((hsorted a b).filter _) (hsorted _ _) fun p => ?_
  rw [List.mem_filter, mem_span, mem_span, decide_eq_true_eq]
  omega

theorem span_eq_nil {a b : Int} (h : a > b) : span a b = [] :=
  List.eq_nil_of_length_eq_zero (by rw [span_length]; omega)

/-- A flush of columns of which some exist: one pair for each of its pages that exists (44 R230). -/
theorem flushTransactions_eq_existing_pages (fb : Memory) {c0 c1 : Int} (hc : max c0 0 ≤ min c1 127) (p0 p1 : Int) :
    flushTransactions fb c0 c1 p0 p1 =
      ((span p0 p1).filter fun p => decide (0 ≤ p ∧ p ≤ 7)).flatMap (pagePair fb (max c0 0) (min c1 127)) := by
  rw [filter_span]
  by_cases hp : max p0 0 > min p1 7
  · rw [flushTransactions_empty (.inr hp), span_eq_nil hp, List.flatMap_nil]
  · exact flushTransactions_eq_pagePairs (by omega)

/-- The pages of a glyph: one if it is page-aligned, else two, the upper first (42 R163, R168). -/
theorem span_xyLastPage (y : Int) :
    span (y / 8) (xyLastPage y) = if y % 8 = 0 then [y / 8] else [y / 8, y / 8 + 1] := by
  unfold xyLastPage
  by_cases hy : y % 8 = 0
  · rw [if_pos (by omega), if_pos hy, span_self]
  · rw [if_neg (by omega), if_neg hy, span, show (y / 8 + 1 + 1 - y / 8).toNat = 2 by omega]
    simp [List.range_succ]

/-- The flush of a glyph of which some column can reach the screen (42 R168). -/
theorem flushTransactions_xy (fb : Memory) {x : Int} (hx : -5 < x) (y : Int) :
    flushTransactions fb x (x + 4) (y / 8) (xyLastPage y) =
      if x < 128 ∧ y < 64 then
        ((if y % 8 = 0 then [y / 8] else [y / 8, y / 8 + 1]).filter fun p => decide (0 ≤ p ∧ p ≤ 7)).flatMap
          (pagePair fb (max x 0) (min (x + 4) 127))
      else [] := by
  split
  · next h => rw [flushTransactions_eq_existing_pages fb (by omega), span_xyLastPage]
  · next h => exact flushTransactions_empty (by omega)

/-- Settles O41: CharAtXY flushes the pages of its glyph, and nothing if it does not draw. -/
theorem putcharxyFlushesItsPages : Obligations.PutcharxyFlushesItsPages := by
  intro s t inv ch x y h
  obtain rfl := exec_putcharxy_next h
  by_cases hno : XyNoOp ch x.toInt y.toInt
  · rw [charAtXY_of_xyNoOp hno, if_neg (by unfold XyNoOp at hno; omega), List.append_nil]
    rfl
  · obtain ⟨g, hg, hon⟩ := exists_glyphSlot_of_not_xyNoOp hno
    rw [charAtXY_draw hg hon]
    refine congrArg (s.history ++ ·) ?_
    unfold XyNoOp at hno
    cases hauto : s.auto with
    | false => rfl
    | true =>
      refine (flushTransactions_xy _ (by omega) _).trans (if_congr ?_ rfl rfl)
      simp only [true_and]
      omega

/-! ### The function Measure (42 R191) -/

/-- A line feed ends the line before it. -/
theorem splitOn_newline_cons (rest : List Byte) :
    ((0x0A : Byte) :: rest).splitOn 0x0A = [] :: rest.splitOn 0x0A := by
  rw [List.splitOn_cons_eq_if_modifyHead, if_pos (beq_self_eq_true _)]

/-- Every other byte is on the line of what follows it. -/
theorem splitOn_newline_cons_of_ne {b : Byte} (hb : b ≠ 0x0A) (rest : List Byte) :
    (b :: rest).splitOn 0x0A = (rest.splitOn 0x0A).modifyHead (b :: ·) := by
  rw [List.splitOn_cons_eq_if_modifyHead, if_neg (by rwa [beq_iff_eq])]

/-- A string has one line more than it has line feeds. -/
theorem length_splitOn_newline (bytes : List Byte) : (bytes.splitOn 0x0A).length = 1 + bytes.count 0x0A := by
  induction bytes with
  | nil => rfl
  | cons b rest ih =>
    by_cases hb : b = 0x0A
    · subst hb
      rw [splitOn_newline_cons, List.length_cons, ih, List.count_cons_self, add_assoc]
    · rw [splitOn_newline_cons_of_ne hb, List.length_modifyHead, ih, List.count_cons_of_ne hb]

/-- What a byte adds to the width of its line (42 R191). -/
def byteWidth (b : Byte) : Nat := if b = 0x0D then 0 else 6

theorem byteWidth_le (b : Byte) : byteWidth b ≤ 6 := by
  unfold byteWidth
  split <;> omega

theorem six_dvd_byteWidth (b : Byte) : 6 ∣ byteWidth b := by
  unfold byteWidth
  split <;> omega

/-- The width of one line: every byte but 0x0D counts 6 (42 R191). -/
def lineWidth (line : List Byte) : Nat := 6 * (line.filter fun b => b != 0x0D).length

theorem lineWidth_cons (b : Byte) (line : List Byte) : lineWidth (b :: line) = byteWidth b + lineWidth line := by
  by_cases hb : b = 0x0D
  · subst hb
    rw [byteWidth, if_pos rfl, zero_add]
    rfl
  · rw [byteWidth, if_neg hb, lineWidth, List.filter_cons_of_pos (by rwa [bne_iff_ne]), List.length_cons, lineWidth]
    omega

/-- The widest line of a string whose first line continues one of width `line`. -/
def widestFrom (line : Nat) (bytes : List Byte) : Nat :=
  (((bytes.splitOn 0x0A).map lineWidth).modifyHead (line + ·)).foldr max 0

theorem widestFrom_zero (bytes : List Byte) :
    widestFrom 0 bytes = ((bytes.splitOn 0x0A).map lineWidth).foldr max 0 := by
  rw [widestFrom, show (fun w => 0 + w) = id from funext Nat.zero_add, List.modifyHead_id, id]

theorem widestFrom_nil (line : Nat) : widestFrom line [] = line := Nat.max_zero line

theorem widestFrom_newline (line : Nat) (rest : List Byte) :
    widestFrom line (0x0A :: rest) = max line (widestFrom 0 rest) := by
  rw [widestFrom, splitOn_newline_cons, widestFrom_zero]
  rfl

theorem widestFrom_cons {b : Byte} (hb : b ≠ 0x0A) (line : Nat) (rest : List Byte) :
    widestFrom line (b :: rest) = widestFrom (line + byteWidth b) rest := by
  obtain ⟨l, ls, hsplit⟩ := List.exists_cons_of_ne_nil (List.splitOn_ne_nil 0x0A rest)
  rw [widestFrom, splitOn_newline_cons_of_ne hb, widestFrom, hsplit]
  simp only [List.modifyHead_cons, List.map_cons, lineWidth_cons, add_assoc]

/-- The loop of Measure, line by line. -/
theorem measureFrom_eq (bytes : List Byte) (w line h : Nat) :
    measureFrom bytes w line h = (max w (widestFrom line bytes), h + 8 * bytes.count 0x0A) := by
  induction bytes generalizing w line h with
  | nil => rw [measureFrom, widestFrom_nil]; rfl
  | cons b rest ih =>
    rw [measureFrom]
    by_cases hlf : b = 0x0A
    · subst hlf
      rw [if_pos rfl, ih, widestFrom_newline, max_assoc, List.count_cons_self]
      congr 1
      omega
    · rw [if_neg hlf, widestFrom_cons hlf, List.count_cons_of_ne hlf]
      by_cases hcr : b = 0x0D
      · rw [if_pos hcr, ih, byteWidth, if_pos hcr, add_zero]
      · rw [if_neg hcr, ih, byteWidth, if_neg hcr]

theorem measureString_eq (bytes : List Byte) :
    measureString bytes = (widestFrom 0 bytes, 8 * (1 + bytes.count 0x0A)) := by
  rw [measureString, measureFrom_eq, Nat.zero_max]
  congr 1
  omega

/-- No line is wider than its bytes. -/
theorem widestFrom_le (bytes : List Byte) (line : Nat) : widestFrom line bytes ≤ line + 6 * bytes.length := by
  induction bytes generalizing line with
  | nil => exact (widestFrom_nil line).le
  | cons b rest ih =>
    rw [List.length_cons]
    by_cases hlf : b = 0x0A
    · subst hlf
      have := ih 0
      rw [widestFrom_newline]
      omega
    · have := ih (line + byteWidth b)
      have := byteWidth_le b
      rw [widestFrom_cons hlf]
      omega

/-- A width is a multiple of 6. -/
theorem six_dvd_widestFrom (bytes : List Byte) {line : Nat} (h : 6 ∣ line) : 6 ∣ widestFrom line bytes := by
  induction bytes generalizing line with
  | nil => rwa [widestFrom_nil]
  | cons b rest ih =>
    by_cases hlf : b = 0x0A
    · subst hlf
      rw [widestFrom_newline]
      exact max_rec' (6 ∣ ·) h (ih (dvd_zero 6))
    · rw [widestFrom_cons hlf]
      exact ih (dvd_add h (six_dvd_byteWidth b))

theorem measureString_width_le (bytes : List Byte) : (measureString bytes).1 ≤ 6 * bytes.length := by
  rw [measureString_eq]
  have := widestFrom_le bytes 0
  omega

/-- Settles O45: the widest line and the line feeds of the loop of Measure, and their bounds. -/
theorem measureFunction : Obligations.MeasureFunction := by
  intro bytes
  refine ⟨(measureString_eq bytes).trans (by rw [widestFrom_zero]; rfl), fun hlen => ?_⟩
  have hwidth := measureString_width_le bytes
  have hcount : bytes.count 0x0A ≤ bytes.length := List.count_le_length
  have hsix : 6 ∣ widestFrom 0 bytes := six_dvd_widestFrom bytes (dvd_zero 6)
  rw [measureString_eq] at hwidth ⊢
  dsimp only at hwidth ⊢
  omega

/-! ### The payload of a string command (30_encoding R83) -/

/-- A string command whose payload is at the head of STR: the payload is taken, whatever is then done with it. -/
theorem withString_of_payload {s : State} {len : Byte} {bytes rest : List Byte} (hstr : s.str = bytes ++ rest)
    (hlen : bytes.length = len.toNat) (body : List Byte → State → State) :
    withString false len s body = complete s (body bytes (s.setStr rest)) := by
  have hp : stringPayload false len = bytes.length := hlen.symm
  rw [withString_eq, hp, hstr, if_pos (by rw [List.length_append]; omega), List.take_left, List.drop_left]
  rfl

/-! ### MEASURE (42 R190) -/

/-- Settles O44: MEASURE stores what Measure answers and emits nothing. -/
theorem measureGivesTheBox : Obligations.MeasureGivesTheBox := by
  intro s len bytes rest hstr hlen
  have hexec : exec (.measure false len) s = .next ((storeMeasure bytes (s.setStr rest)).setBusy false) :=
    (withString_of_payload hstr hlen storeMeasure).trans (complete_of_quiet rfl)
  rw [hexec, storeMeasure, measureString_eq, widestFrom_zero, ← length_splitOn_newline]
  rfl

/-! ### PRINTSTRXY (42 R180 to R183) -/

theorem stringRejected_iff {x y : Int} {w : Nat} :
    stringRejected x y w = true ↔ x + (w : Int) ≤ 0 ∨ 128 ≤ x ∨ y ≤ -8 ∨ 72 ≤ y := by
  simp [stringRejected, or_assoc]

theorem exec_printstrxy_of_payload {s : State} {len : Byte} {bytes rest : List Byte} (hstr : s.str = bytes ++ rest)
    (hlen : bytes.length = len.toNat) (inv : Bool) (x y : Half) :
    exec (.printstrxy inv false len x y) s =
      complete s (printAtXY x.toInt y.toInt inv bytes (s.setStr rest)) :=
  withString_of_payload hstr hlen _

/-- Settles O42: a rejected string is taken from STR and emits nothing. -/
theorem printstrxyRejection : Obligations.PrintstrxyRejection := by
  intro s inv len x y bytes rest hstr hlen hrej
  rw [exec_printstrxy_of_payload hstr hlen, printAtXY, if_pos (stringRejected_iff.2 hrej)]
  exact complete_of_quiet rfl

/-- The characters of the cells, one after the other. -/
def drawCells (inv : Bool) : List (Byte × Int × Int) → State → State
  | [], s => s
  | cell :: cells, s => drawCells inv cells (charAtXY cell.1 cell.2.1 cell.2.2 inv s)

/-- The walk of PRINTSTRXY draws the cells it visits (42 R182, R183). -/
theorem walkXY_eq_drawCells (x : Int) (inv : Bool) (bytes : List Byte) (cx cy : Int) (s : State) :
    walkXY x inv bytes cx cy s = drawCells inv (walkCells x bytes cx cy) s := by
  induction bytes generalizing cx cy s with
  | nil => rfl
  | cons b rest ih =>
    rw [walkXY, walkCells]
    split
    · split
      · rfl
      · exact ih x (cy + 8) s
    · exact ih (cx + 6) cy _

/-- The cells of a walk lie right of the line's start, at most 6 columns a byte further, and above row 72 if the first one does. -/
theorem walkCells_bounds {x : Int} {bytes : List Byte} {cx cy : Int} (hcx : x ≤ cx) (hcy : cy < 72)
    {cell : Byte × Int × Int} (h : cell ∈ walkCells x bytes cx cy) :
    x ≤ cell.2.1 ∧ cell.2.1 ≤ cx + 6 * bytes.length ∧ cy ≤ cell.2.2 ∧ cell.2.2 < 72 := by
  induction bytes generalizing cx cy with
  | nil => exact absurd h List.not_mem_nil
  | cons b rest ih =>
    rw [List.length_cons]
    rw [walkCells] at h
    split at h
    · split at h
      · exact absurd h List.not_mem_nil
      · have := ih le_rfl (by omega) h
        omega
    · rcases List.mem_cons.1 h with rfl | h
      · dsimp only
        omega
      · have := ih (by omega) hcy h
        omega

theorem toInt_wrap16_of_bounds {v : Int} (hlo : -32768 ≤ v) (hhi : v < 32768) : (wrap16 v).toInt = v :=
  (toInt_wrap16 v).trans (Int.bmod_eq_of_le (by omega) (by omega))

/-- A character at a pixel position reads no BUSY (10_state R32). -/
theorem charAtXY_setBusy (ch : Byte) (x y : Int) (inv : Bool) (s : State) (b : Bool) :
    charAtXY ch x y inv (s.setBusy b) = (charAtXY ch x y inv s).setBusy b := by
  have hk := charAtXY_keeps ch x y inv s
  refine (charAtXY_onto ch x y inv s (s.setBusy b)).trans ?_
  simp only [State.onto, State.setBusy, hk.fault, hk.cmd, hk.str, hk.past, hk.rst, hk.stalled, hk.resets]

/-- The PUTCHARXYs of cells whose positions are 16-bit values draw the cells; BUSY falls after each and none reads it. -/
theorem execAll_putcharxys (inv : Bool) {cells : List (Byte × Int × Int)} {s : State} (hs : s.stalled = false)
    (hcells : ∀ cell ∈ cells, (wrap16 cell.2.1).toInt = cell.2.1 ∧ (wrap16 cell.2.2).toInt = cell.2.2) :
    execAll (cells.map fun cell => .putcharxy inv cell.1 (wrap16 cell.2.1) (wrap16 cell.2.2)) (s.setBusy false) =
      .next ((drawCells inv cells s).setBusy false) := by
  induction cells generalizing s with
  | nil => rfl
  | cons cell cells ih =>
    obtain ⟨hx, hy⟩ := hcells cell (List.mem_cons_self ..)
    have hstep : exec (.putcharxy inv cell.1 (wrap16 cell.2.1) (wrap16 cell.2.2)) (s.setBusy false) =
        .next ((charAtXY cell.1 cell.2.1 cell.2.2 inv s).setBusy false) := by
      rw [exec_putcharxy_of_accepting (s := s.setBusy false) hs, hx, hy, charAtXY_setBusy]
      rfl
    rw [List.map_cons, execAll_cons hstep, drawCells]
    exact ih ((charAtXY_keeps ..).stalled.trans hs) fun c hc => hcells c (List.mem_cons_of_mem _ hc)

/-- Settles O43: an accepted string starts right of column -1530 and left of column 128, so no cell of its walk leaves the 16-bit
positions. -/
theorem printstrxyIsPutcharxyPerCell : Obligations.PrintstrxyIsPutcharxyPerCell := by
  intro s inv len x y bytes rest hs hstr hlen hacc
  refine ⟨_, (exec_printstrxy_of_payload hstr hlen inv x y).trans (complete_of_accepting hs _), ?_⟩
  rw [printAtXY, if_neg (stringRejected_iff.not.2 hacc), walkXY_eq_drawCells]
  refine execAll_putcharxys inv (s := s.setStr rest) hs fun cell hcell => ?_
  have hwidth := measureString_width_le bytes
  have hlen256 := len.isLt
  obtain ⟨hx0, hx1, hy0, hy1⟩ := walkCells_bounds le_rfl (by omega) hcell
  exact ⟨toInt_wrap16_of_bounds (by omega) (by omega), toInt_wrap16_of_bounds (by omega) (by omega)⟩

end Sys2Proof.Machine

/-! PROOFS. The rectangles' family (43_rect): the pixels and the transactions of DRAWRECT and FILLRECT, and what a second, or an
inverted, application of the same writes does. -/

namespace Sys2Proof.Machine

/-! ### Applying the same writes again (20_memory R61) -/

theorem applyAll_idempotent (inv : Bool) (ws : List MaskWrite) {fb : Memory} (h : fb.wf = true) :
    applyAll inv ws (applyAll inv ws fb) = applyAll inv ws fb := by
  have h1 := applyAll_wf inv ws h
  refine eq_of_pixels (applyAll_wf inv ws h1) h1 fun x y hx hy => ?_
  rw [pixel_applyAll inv ws h1 hx hy, pixel_applyAll inv ws h hx hy]
  split <;> rfl

/-- No pixel of a clear framebuffer is set (20_memory R60). -/
@[simp] theorem pixel_clear (x y : Int) : pixel Memory.clear x y = false := BitVec.getLsbD_zero

/-- On a clear framebuffer a list of writes and then the same list inverted restore it: both hit the same pixels. -/
theorem applyAll_true_applyAll_false_clear (ws : List MaskWrite) :
    applyAll true ws (applyAll false ws Memory.clear) = Memory.clear := by
  have h1 := applyAll_wf false ws Memory.wf_clear
  refine eq_of_pixels (applyAll_wf true ws h1) Memory.wf_clear fun x y hx hy => ?_
  rw [pixel_applyAll true ws h1 hx hy, pixel_applyAll false ws Memory.wf_clear hx hy, pixel_clear]
  split <;> rfl

/-! ### The writes of a rectangle command (43 R202, R221, R222) -/

/-- The writes a rectangle command makes: none if it is rejected (43 R202). -/
def boxWrites (writes : Box → List MaskWrite) (b : Box) : List MaskWrite := if b.rejected then [] else writes b

theorem drawBox_fb (writes : Box → List MaskWrite) (inv : Bool) (b : Box) (s : State) :
    (drawBox writes inv b s).fb = applyAll inv (boxWrites writes b) s.fb := by
  cases h : b.rejected with
  | true => simp [drawBox_rejected h, boxWrites, h, applyAll]
  | false => simp [drawBox_eq h, boxWrites, h]

theorem Box.rejected_eq_false_iff (b : Box) :
    b.rejected = false ↔ 0 ≤ b.xe ∧ b.xs < 128 ∧ 0 ≤ b.ye ∧ b.ys < 64 := by
  rw [← Bool.not_eq_true, b.rejected_iff]
  omega

/-- If the writes hit exactly the pixels of a figure inside the rectangle, so does the command: a rejected rectangle has no pixel
on the screen (43 R202). -/
theorem boxWrites_hits {writes : Box → List MaskWrite} {b : Box} {x y : Int} {figure : Prop}
    (hx : 0 ≤ x ∧ x < 128) (hy : 0 ≤ y ∧ y < 64)
    (hhits : b.rejected = false → ((writes b).any (fun w => w.hits x y) = true ↔ figure))
    (hinside : figure → b.xs ≤ x ∧ x ≤ b.xe ∧ b.ys ≤ y ∧ y ≤ b.ye) :
    (boxWrites writes b).any (fun w => w.hits x y) = true ↔ figure := by
  cases h : b.rejected with
  | true =>
    have hout := b.rejected_iff.1 h
    have hno : ¬figure := fun hf => by
      have := hinside hf
      omega
    simp [boxWrites, h, hno]
  | false => simpa [boxWrites, h] using hhits h

/-! ### The commands (43 R210, R220) -/

/-- A rectangle command changes the framebuffer and the history only (43 R210, R220). -/
theorem drawBox_setBusy (writes : Box → List MaskWrite) (inv : Bool) (b : Box) (s : State) :
    (drawBox writes inv b s).setBusy false =
      { s with fb := (drawBox writes inv b s).fb, history := (drawBox writes inv b s).history, busy := false } := by
  obtain ⟨ws, ts, hform, -, -⟩ := drawBox_form writes inv b s
  rw [hform]
  rfl

theorem exec_fillrect_of_accepting {s : State} (hs : s.stalled = false) (inv : Bool) (x0 y0 x1 y1 : Half) :
    exec (.fillrect inv x0 y0 x1 y1) s = .next ((drawBox fillWrites inv (boxOf x0 y0 x1 y1) s).setBusy false) :=
  complete_of_accepting hs _

theorem exec_drawrect_of_accepting {s : State} (hs : s.stalled = false) (inv : Bool) (x0 y0 x1 y1 : Half) :
    exec (.drawrect inv x0 y0 x1 y1) s = .next ((drawBox outlineWrites inv (boxOf x0 y0 x1 y1) s).setBusy false) :=
  complete_of_accepting hs _

theorem exec_fillrect_next {s t : State} {inv : Bool} {x0 y0 x1 y1 : Half}
    (h : exec (.fillrect inv x0 y0 x1 y1) s = .next t) :
    t = (drawBox fillWrites inv (boxOf x0 y0 x1 y1) s).setBusy false :=
  (complete_next h).1

theorem exec_drawrect_next {s t : State} {inv : Bool} {x0 y0 x1 y1 : Half}
    (h : exec (.drawrect inv x0 y0 x1 y1) s = .next t) :
    t = (drawBox outlineWrites inv (boxOf x0 y0 x1 y1) s).setBusy false :=
  (complete_next h).1

/-- Settles O46: the writes of FILLRECT hit the pixels of the rectangle. -/
theorem fillrectPixels : Obligations.FillrectPixels := by
  intro s inv x0 y0 x1 y1 hs hwf
  refine ⟨_, _, (exec_fillrect_of_accepting hs inv x0 y0 x1 y1).trans (congrArg _ (drawBox_setBusy ..)),
    fun x y hx hy => ?_⟩
  obtain ⟨-, hys⟩ := boxOf_ordered x0 y0 x1 y1
  rw [drawBox_fb, pixel_applyAll inv _ hwf hx hy]
  exact if_congr (boxWrites_hits hx hy (fun hr => fillWrites_hits hr hys hx hy) id) rfl rfl

/-- Settles O47: the writes of DRAWRECT hit the pixels of the border; its edges lie at the corners, whatever their order. -/
theorem drawrectPixels : Obligations.DrawrectPixels := by
  intro s inv x0 y0 x1 y1 hs hwf
  refine ⟨_, _, (exec_drawrect_of_accepting hs inv x0 y0 x1 y1).trans (congrArg _ (drawBox_setBusy ..)),
    fun x y hx hy => ?_⟩
  obtain ⟨hxs, hys⟩ := boxOf_ordered x0 y0 x1 y1
  rw [drawBox_fb, pixel_applyAll inv _ hwf hx hy]
  refine if_congr ((boxWrites_hits hx hy (fun hr => outlineWrites_hits hr hxs hys hx hy) And.left).trans ?_) rfl rfl
  simp only [boxOf, coord]
  omega

/-! ### The transactions of a rectangle command (43 R223) -/

theorem Box.ps_eq_max (b : Box) : b.ps = max b.ys 0 / 8 := by
  rw [b.ps_eq]
  split <;> omega

theorem Box.pe_eq_min (b : Box) : b.pe = min b.ye 63 / 8 := by
  rw [b.pe_eq]
  split <;> omega

/-- The bounding span of a rectangle that is not rejected is already inside the buffer: the clamp of the flush changes nothing
(43 R223). -/
theorem flushTransactions_box {b : Box} (hr : b.rejected = false) (hxs : b.xs ≤ b.xe) (hys : b.ys ≤ b.ye) (fb : Memory) :
    flushTransactions fb b.cs b.ce b.ps b.pe =
      (span (max b.ys 0 / 8) (min b.ye 63 / 8)).flatMap (pagePair fb b.cs b.ce) := by
  have hin := b.rejected_eq_false_iff.1 hr
  have hcs : max b.cs 0 = b.cs := by unfold Box.cs; omega
  have hce : min b.ce 127 = b.ce := by unfold Box.ce; omega
  have hcols : b.cs ≤ b.ce := by unfold Box.cs Box.ce; omega
  have hps : max (max b.ys 0 / 8) 0 = max b.ys 0 / 8 := by omega
  have hpe : min (min b.ye 63 / 8) 7 = min b.ye 63 / 8 := by omega
  rw [b.ps_eq_max, b.pe_eq_min, flushTransactions_eq_pagePairs (by omega), hcs, hce, hps, hpe]

/-- What a rectangle command emits, whatever its writes: the pages of its bounding span as it leaves them, in auto mode and unless
it is rejected (43 R202, R223). -/
theorem drawBox_history (writes : Box → List MaskWrite) (inv : Bool) {b : Box} (hxs : b.xs ≤ b.xe) (hys : b.ys ≤ b.ye)
    (s : State) :
    (drawBox writes inv b s).history = s.history ++
      if s.auto = true ∧ 0 ≤ b.xe ∧ b.xs < 128 ∧ 0 ≤ b.ye ∧ b.ys < 64 then
        (span (max b.ys 0 / 8) (min b.ye 63 / 8)).flatMap (pagePair (drawBox writes inv b s).fb b.cs b.ce)
      else [] := by
  cases hr : b.rejected with
  | true =>
    have hout := b.rejected_iff.1 hr
    rw [drawBox_rejected hr, if_neg (by omega), List.append_nil]
  | false =>
    have hin := b.rejected_eq_false_iff.1 hr
    simp only [drawBox_eq hr, autoTransactions, flushTransactions_box hr hxs hys, and_iff_left hin]

/-- Settles O48: both commands are a rectangle's writes followed by the flush of its bounding span. -/
theorem rectanglesFlushTheirSpan : Obligations.RectanglesFlushTheirSpan := by
  intro s t inv x0 y0 x1 y1 h
  obtain ⟨hxs, hys⟩ := boxOf_ordered x0 y0 x1 y1
  rcases h with h | h
  · obtain rfl := exec_fillrect_next h
    exact drawBox_history fillWrites inv hxs hys s
  · obtain rfl := exec_drawrect_next h
    exact drawBox_history outlineWrites inv hxs hys s

/-! ### The same rectangle twice, and inverted (43 R221, R222) -/

/-- Settles O49: both commands make the same writes. -/
theorem fillrectIsIdempotent : Obligations.FillrectIsIdempotent := by
  intro s t u inv x0 y0 x1 y1 hwf ht hu
  obtain rfl := exec_fillrect_next ht
  obtain rfl := exec_fillrect_next hu
  simp only [State.setBusy_fb, drawBox_fb]
  exact applyAll_idempotent inv _ hwf

theorem drawBox_true_drawBox_false_clear (writes : Box → List MaskWrite) (b : Box) {s : State} (hs : s.fb = Memory.clear) :
    (drawBox writes true b ((drawBox writes false b s).setBusy false)).fb = Memory.clear := by
  rw [drawBox_fb, State.setBusy_fb, drawBox_fb, hs]
  exact applyAll_true_applyAll_false_clear _

/-- Settles O50: the second command inverts the writes of the first. -/
theorem invertedRectangleUndoes : Obligations.InvertedRectangleUndoes := by
  intro s t u x0 y0 x1 y1 hs h
  rcases h with ⟨ht, hu⟩ | ⟨ht, hu⟩
  · obtain rfl := exec_fillrect_next ht
    obtain rfl := exec_fillrect_next hu
    exact drawBox_true_drawBox_false_clear fillWrites _ hs
  · obtain rfl := exec_drawrect_next ht
    obtain rfl := exec_drawrect_next hu
    exact drawBox_true_drawBox_false_clear outlineWrites _ hs

end Sys2Proof.Machine

/-! PROOFS. The dispatcher's family (44_flush): the transactions of the full flush and their data bytes, the place of each page's
pair among the transactions of a region, and the commands FLUSHALL, FLUSHREGION and CLEARFLUSH. -/

namespace Sys2Proof.Machine

/-! ### The full flush (44 R232, R234) -/

theorem span_zero (b : Nat) : span 0 b = (List.range (b + 1)).map fun k : Nat => (k : Int) := by
  rw [span, show ((b : Int) + 1 - 0).toNat = b + 1 by omega]
  simp only [zero_add]

/-- One whole page: its ADDR at column 0 and its 128 bytes (44 R232). -/
theorem pagePair_wholePage (fb : Memory) (p : Nat) :
    pagePair fb 0 127 p = [.addr 0 p, .data ((List.range 128).map fun c => fb.read (128 * p + c))] := by
  have hbytes : ((span 0 127).map fun c => fb.read (idx c p)) = (List.range 128).map fun c => fb.read (128 * p + c) := by
    rw [show span 0 127 = (List.range 128).map fun k : Nat => (k : Int) from span_zero 127, List.map_map]
    refine List.map_congr_left fun c _ => ?_
    rw [Function.comp_apply, idx_natCast, Nat.mul_comm p]
  rw [pagePair, hbytes]
  rfl

/-- Flush(0, 127, 0, 7): the bounds clamp to themselves, and each of the eight pages is a whole one (44 R230, R232). -/
theorem flushTransactions_full (fb : Memory) :
    flushTransactions fb 0 127 0 7 =
      (List.range 8).flatMap fun p => [.addr 0 p, .data ((List.range 128).map fun c => fb.read (128 * p + c))] := by
  have hpages : flushTransactions fb 0 127 0 7 = (span 0 7).flatMap (pagePair fb 0 127) :=
    flushTransactions_eq_pagePairs (by decide)
  rw [hpages, show span 0 7 = (List.range 8).map fun k : Nat => (k : Int) from span_zero 7, List.flatMap_map]
  exact List.flatMap_congr fun p _ => pagePair_wholePage fb p

/-! ### The data bytes of the full flush (44 R236) -/

theorem dataBytes_flatMap_pair (c : Nat) (bytes : Nat → List Byte) (pages : List Nat) :
    dataBytes (pages.flatMap fun p => [.addr c p, .data (bytes p)]) = pages.flatMap bytes := by
  induction pages with
  | nil => rfl
  | cons p pages ih =>
    rw [List.flatMap_cons, List.flatMap_cons, dataBytes_append, ih]
    simp only [dataBytes, List.append_nil]

/-- Blocks of `m` consecutive numbers, one after the other, are the numbers in order. -/
theorem range_flatMap_block (m n : Nat) :
    ((List.range n).flatMap fun p => (List.range m).map fun c => m * p + c) = List.range (m * n) := by
  induction n with
  | zero => rfl
  | succ n ih =>
    rw [List.range_succ, List.flatMap_append, ih, List.flatMap_singleton, Nat.mul_succ, List.range_add]

/-- The eight pages' bytes are the framebuffer in index order, since page `p` holds the indices from 128 * p (20_memory R51). -/
theorem dataBytes_flushTransactions_full (fb : Memory) :
    dataBytes (flushTransactions fb 0 127 0 7) = (List.range 1024).map fun k => fb.read k := by
  rw [flushTransactions_full, dataBytes_flatMap_pair, ← range_flatMap_block 128 8, List.map_flatMap]
  simp only [List.map_map, Function.comp_def]

/-- Settles O51: FLUSHALL completes with the transactions of the full flush. -/
theorem flushallSendsTheFramebuffer : Obligations.FlushallSendsTheFramebuffer := fun s hs =>
  ⟨flushTransactions s.fb 0 127 0 7, complete_of_accepting hs _, flushTransactions_full s.fb,
    dataBytes_flushTransactions_full s.fb⟩

/-- Settles O54: CLEARFLUSH completes with the transactions of the full flush of the clear framebuffer, whose bytes read 0. -/
theorem clearflushClearsAndSends : Obligations.ClearflushClearsAndSends := by
  refine fun s hs => ⟨Memory.clear, flushTransactions Memory.clear 0 127 0 7, complete_of_accepting hs _,
    Memory.read_clear, ?_⟩
  simp only [flushTransactions_full, Memory.read_clear, List.map_const', List.length_range]

/-! ### The place of a page's pair (44 R230, R233) -/

theorem length_flatMap_pagePair (fb : Memory) (cs ce : Int) (pages : List Int) :
    (pages.flatMap (pagePair fb cs ce)).length = 2 * pages.length := by
  simp only [List.length_flatMap, pagePair, List.length_cons, List.length_nil, List.map_const', List.sum_replicate_nat]
  omega

/-- The pair of the page at place `k` stands at the places 2k and 2k + 1. -/
theorem getElem?_flatMap_pagePair (fb : Memory) (cs ce : Int) {pages : List Int} {k : Nat} {p : Int}
    (hp : pages[k]? = some p) :
    (pages.flatMap (pagePair fb cs ce))[2 * k]? = some (.addr cs.toNat p.toNat) ∧
    (pages.flatMap (pagePair fb cs ce))[2 * k + 1]? = some (.data ((span cs ce).map fun c => fb.read (idx c p))) := by
  induction pages generalizing k with
  | nil => cases hp
  | cons q pages ih =>
    cases k with
    | zero =>
      obtain rfl := Option.some.inj hp
      exact ⟨rfl, rfl⟩
    | succ k => exact ih hp

/-- Settles O52: a FLUSHREGION completes with the transactions of its flush; if the clamped region is not empty, they are the
pairs of its pages. -/
theorem flushregionSendsTheClampedRegion : Obligations.FlushregionSendsTheClampedRegion := by
  intro s c0 p0 c1 p1 hs
  refine ⟨flushTransactions s.fb c0.toInt c1.toInt p0.toInt p1.toInt, complete_of_accepting hs _,
    flushTransactions_empty, fun hc hp => ?_⟩
  rw [flushTransactions_eq_pagePairs (by omega)]
  refine ⟨?length, fun k hk => ?pair⟩
  case length =>
    rw [length_flatMap_pagePair, span_length]
    omega
  case pair =>
    obtain ⟨haddr, hdata⟩ :=
      getElem?_flatMap_pagePair s.fb (max c0.toInt 0) (min c1.toInt 127) (span_getElem? hk)
    have hlen : ((span (max c0.toInt 0) (min c1.toInt 127)).length : Int) =
        min c1.toInt 127 - max c0.toInt 0 + 1 := by
      rw [span_length]
      omega
    refine ⟨haddr, _, hdata, by rw [List.length_map, hlen], fun j hj => ?_⟩
    rw [List.length_map] at hj
    rw [List.getElem?_map, span_getElem? (by omega), Option.map_some, idx, ← add_assoc]

end Sys2Proof.Machine

/-! PROOFS. The control's family (45_control): INIT and SETMODE, which emit nothing and take no payload. -/

namespace Sys2Proof.Machine

/-- Settles O56: INIT emits nothing, so it completes whatever the transport does, and the cleared framebuffer lists no byte. -/
theorem initState : Obligations.InitState := fun _ =>
  ⟨Memory.clear, exec_of_quiet rfl rfl, Memory.read_clear⟩

/-- Settles O57: SETMODE emits nothing, so it completes whatever the transport does, with the AUTO of its operand. -/
theorem setmodeSetsAuto : Obligations.SetmodeSetsAuto := fun _ _ => exec_of_quiet rfl rfl

end Sys2Proof.Machine

/-! PROOFS. The exceptions' family (60_exceptions): no operand raises anything, an illegal frame raises IllegalCommand, and the fault
state has no successor. -/

namespace Sys2Proof.Machine

/-- Settles O14: a command asks for its payload and for the transport, and for nothing else. -/
theorem everyCommandCompletes : Obligations.EveryCommandCompletes :=
  fun _ _ hs hp => ⟨_, exec_of_accepting hs hp⟩

/-- IllegalCommand raised on an accepted frame ends with BUSY low again, as it was before the acceptance (60 R262). -/
theorem raiseIllegalCommand_accept {s : State} (hb : s.busy = false) (rest : List Frame) :
    raiseIllegalCommand (accept rest s) = { s with cmd := rest, fault := true } := by
  rw [raiseIllegalCommand, ← hb]
  rfl

theorem fetchFrame_of_decode_error {f : Frame} {e : DecodeError} (hd : decode f = .error e) (s : State) :
    fetchFrame f s = .settled (.next (raiseIllegalCommand s)) := by
  simp only [fetchFrame, hd]

/-- A step on an illegal frame takes it off CMD and sets FAULT. -/
theorem step_of_decode_error {s : State} {f : Frame} {rest : List Frame} {e : DecodeError} (hs : Accepting s)
    (hc : s.cmd = f :: rest) (hd : decode f = .error e) : step s = .next { s with cmd := rest, fault := true } := by
  have ⟨_, _, hb⟩ := hs
  rw [step, fetch_of_frame hs hc, fetchFrame_of_decode_error hd, raiseIllegalCommand_accept hb]

/-- Settles O8: the frame is accepted, and raising IllegalCommand lowers BUSY again. -/
theorem illegalFrameRaisesFault : Obligations.IllegalFrameRaisesFault :=
  fun _ _ _ _ hr hf hb hc hd => step_of_decode_error ⟨hr, hf, hb⟩ hc hd

/-- With FAULT = 1 and no reset the fetch looks at no frame and not at BUSY (60 R264). -/
theorem fetch_of_fault {s : State} (hr : s.rst = .low) (hf : s.fault = true) : fetch s = .settled (.fault .halted) := by
  simp only [fetch, hr, hf, if_true]

/-- Settles O9: the fetch of a block in fault is the end of the step. -/
theorem faultStateIsTerminal : Obligations.FaultStateIsTerminal := by
  intro s hr hf
  rw [step, fetch_of_fault hr hf]

end Sys2Proof.Machine

/-! PROOFS. The family of reset and hazards (70_reset_and_hazards): reset between commands and inside one, the idle block, a
payload that is short, a transport that stalls, and the run that an illegal frame ends. -/

namespace Sys2Proof.Machine

/-! ### Reset between commands and the idle block (70 R280 to R284, R295) -/

theorem step_of_rst_high {s : State} (hr : s.rst = .high) : step s = .next (hardwareReset s) := by
  simp only [step, fetch, hr]

/-- Every index of the framebuffer holds its free value after reset (70 R283). -/
theorem read_fbReset (n : Nat) {a : Nat} (ha : a < 1024) :
    (Memory.ofBytes (Config.fbReset n)).read a = Config.fbReset n a := by
  rw [Memory.read_ofBytes, if_pos ha]

/-- Settles O12: the reset comes before any look at FAULT, BUSY or CMD. -/
theorem hardwareResetState : Obligations.HardwareResetState :=
  fun s hr => ⟨Memory.ofBytes (Config.fbReset (s.resets + 1)), fun _ => read_fbReset _, step_of_rst_high hr⟩

/-- Settles O11, field by field of the reset state. -/
theorem resetRegisterValues : Obligations.ResetRegisterValues := ⟨rfl, rfl, rfl, rfl, rfl, rfl, rfl⟩

theorem fetch_of_no_frame {s : State} (hs : Accepting s) (hc : s.cmd = []) : fetch s = .settled (.next s) := by
  obtain ⟨hr, hf, hb⟩ := hs
  simp [fetch, hr, hf, hb, hc]

/-- Settles O10: the fetch of a block that accepts, with no frame on CMD, answers the same state. -/
theorem idleBlockHoldsItsState : Obligations.IdleBlockHoldsItsState := by
  intro s hr hf hb hc
  rw [step, fetch_of_no_frame ⟨hr, hf, hb⟩ hc]

/-! ### A short payload and a stalled transport (70 R291 b, R293) -/

/-- Settles O15: no effect follows before the payload has been taken. -/
theorem shortPayloadIsStuck : Obligations.ShortPayloadIsStuck := by
  intro i s h
  rw [exec_eq_effect, if_neg (Nat.not_le.2 h)]

/-- `s` with a transport that has stopped accepting, or that accepts. -/
def State.setStalled (s : State) (b : Bool) : State := { s with stalled := b }

theorem State.setStalled_eq_self {s : State} {b : Bool} (h : s.stalled = b) : s.setStalled b = s := by
  subst h
  rfl

/-- What keeps the control state moves under a change of the transport. -/
theorem Keeps.onto_setStalled {s t : State} (h : Keeps s t) (b : Bool) : t.onto (s.setStalled b) = t.setStalled b := by
  simp only [State.onto, State.setStalled, h.fault, h.busy, h.cmd, h.str, h.past, h.rst, h.resets]

/-- The effect of a command is the same whether the transport accepts or not. -/
theorem effect_setStalled (i : Instr) (bytes : List Byte) (s : State) (b : Bool) :
    effect i bytes (s.setStalled b) = (effect i bytes s).setStalled b :=
  (effect_onto i bytes s (s.setStalled b)).trans ((effect_keeps i bytes s).onto_setStalled b)

/-- With a stalled transport a command that only appends to the history completes iff it appends nothing (70 R293). -/
theorem complete_of_stalled_of_append {s t : State} {ts : List Transaction} (h : s.stalled = true)
    (hts : t.history = s.history ++ ts) :
    complete s t = if t.history = s.history then .next (t.setBusy false) else .fault .transportStalled := by
  split
  next hq => exact complete_of_quiet hq
  next hne =>
    refine complete_of_stalled h fun hlen => hne ?_
    rw [hts, List.length_append] at hlen
    rw [hts, List.length_eq_zero_iff.1 (by omega : ts.length = 0), List.append_nil]

/-- Settles O16: the effect is the same whether the transport accepts or not; what differs is the end of the command. -/
theorem stalledTransportIsStuck : Obligations.StalledTransportIsStuck := by
  intro i s t hs h
  obtain ⟨ht, hp : payloadLength i ≤ s.str.length⟩ := exec_next (s := s.setStalled false) h
  have hk := effect_keeps i (s.str.take (payloadLength i)) (taken i s)
  have heffect := effect_setStalled i (s.str.take (payloadLength i)) (taken i s) false
  rw [exec_eq_effect, if_pos hp]
  generalize effect i (s.str.take (payloadLength i)) (taken i s) = after at hk heffect ⊢
  have hdone : t = (after.setStalled false).setBusy false := ht.trans (congrArg (State.setBusy · false) heffect)
  have hback : t.setStalled true = after.setBusy false := by
    rw [hdone]
    exact State.setStalled_eq_self (s := after.setBusy false) (hk.stalled.trans hs)
  have hhist : t.history = after.history := by rw [hdone]; rfl
  obtain ⟨ts, hts⟩ := hk.history
  rw [complete_of_stalled_of_append hs hts, ← hback, ← hhist]
  rfl

/-! ### The run that an illegal frame ends (70 R295) -/

/-- The inversion of a run that comes to a state: its first step has a successor, and the rest runs from there. -/
theorem exists_step_of_core_run_succ {n : Nat} {s t : State} (h : core.run (n + 1) s = .next t) :
    ∃ u, step s = .next u ∧ core.run n u = .next t := by
  cases hstep : core.step s with
  | next u => exact ⟨u, hstep, by simpa only [Host.Core.run, hstep] using h⟩
  | fault r => simp [Host.Core.run, hstep] at h
  | refused r => simp [Host.Core.run, hstep] at h

/-- A run goes on from the state it has come to. -/
theorem core_run_add {n : Nat} {s t : State} (h : core.run n s = .next t) (k : Nat) :
    core.run (n + k) s = core.run k t := by
  induction n generalizing s with
  | zero =>
    obtain rfl := Host.Outcome.next.inj h
    rw [Nat.zero_add]
  | succ n ih =>
    obtain ⟨u, hstep, hrun⟩ := exists_step_of_core_run_succ h
    rw [Nat.add_right_comm, core_run_succ hstep, ih hrun]

/-- Settles O60: after the commands before it the illegal frame is at the head of CMD, at a block that accepts. -/
theorem illegalFrameEndsTheRun : Obligations.IllegalFrameEndsTheRun := by
  intro cs s f more rest e hwf hacc hs hcmd hstr hd
  obtain ⟨u, hexec, hrun, huacc, -, -, hustr⟩ := run_presented cs s (f :: more) rest hwf hacc hs hstr
  have hpresented : s.setCmd (cs.map (fun c => encode c.instr) ++ f :: more) = s := by rw [← hcmd]; rfl
  rw [hpresented] at hrun
  have hfault := step_of_decode_error (s := u.setCmd (f :: more)) huacc rfl hd
  have ⟨hurst, _, _⟩ := huacc
  exact ⟨_, u, hexec, (core_run_add hrun 1).trans (core_run_succ hfault 0), rfl, rfl, rfl, hustr,
    faultStateIsTerminal _ hurst rfl⟩

/-! ### Reset inside a command (70 R284) -/

theorem step_of_rst_inCommand {s : State} (hr : s.rst = .inCommand) : step s = .next (resetInCommand s) := by
  simp only [step, fetch, hr]

/-- Reset of `s` with the frames and the payload left on its channels and the transactions sent before it. -/
def State.resetLeaving (s : State) (cmd : List Frame) (str : List Byte) (sent : List Transaction) : State :=
  hardwareReset (((s.setCmd cmd).emit sent).setStr str)

theorem State.resetLeaving_eq (s : State) (cmd : List Frame) (str : List Byte) (sent : List Transaction) :
    s.resetLeaving cmd str sent =
      { s with
        fb := Memory.ofBytes (Config.fbReset (s.resets + 1)), curCol := 0, curPage := 0, auto := s.params.autoDefault,
        measW := 0, measH := 0, rdata := 0, fault := false, busy := false, cmd := cmd, str := str, history := [],
        past := s.past ++ s.history ++ sent, rst := .low, resets := s.resets + 1 } := by
  rw [List.append_assoc]
  rfl

theorem State.resetLeaving_of_nothing_sent (s : State) (cmd : List Frame) :
    s.resetLeaving cmd s.str [] = hardwareReset (s.setCmd cmd) := by
  rw [State.resetLeaving, State.emit_nil]
  rfl

/-- With FAULT = 1, BUSY = 1 or no frame there is no command to abandon. -/
theorem resetInCommand_of_no_command {s : State} (h : s.fault = true ∨ s.busy = true ∨ s.cmd = []) :
    resetInCommand s = s.resetLeaving s.cmd s.str [] := by
  rw [State.resetLeaving_of_nothing_sent, show s.setCmd s.cmd = s from rfl, resetInCommand]
  rcases h with hfault | hbusy | hcmd
  · rw [hfault]; rfl
  · rw [hbusy, Bool.or_true]; rfl
  · simp only [hcmd, ite_self]

/-- An illegal frame has been accepted, and there is no command to abandon. -/
theorem resetInCommand_of_decode_error {s : State} {f : Frame} {rest : List Frame} {e : DecodeError}
    (hf : s.fault = false) (hb : s.busy = false) (hc : s.cmd = f :: rest) (hd : decode f = .error e) :
    resetInCommand s = s.resetLeaving rest s.str [] := by
  rw [State.resetLeaving_of_nothing_sent]
  simp [resetInCommand, hf, hb, hc, hd]

/-- A command is abandoned: its frame is gone, and of its payload and its transactions a part. -/
theorem resetInCommand_of_decode {s : State} {f : Frame} {rest : List Frame} {i : Instr}
    (hf : s.fault = false) (hb : s.busy = false) (hc : s.cmd = f :: rest) (hd : decode f = .ok i) :
    resetInCommand s =
      s.resetLeaving rest (s.str.drop (min (payloadLength i) (Config.abandonStr s.resets)))
        (cutTransactions s.resets (transactionsOf i (accept rest s))) := by
  simp only [resetInCommand, hf, hb, hc, hd]
  rfl

theorem cutTransactions_eq_cutShort (n : Nat) (ts : List Transaction) :
    cutTransactions n ts = cutShort ts (Config.abandonTx n) (Config.abandonBytes n) := rfl

theorem reachable_of_payload {i : Instr} {s : State} (h : payloadLength i ≤ s.str.length) : reachable i s = i := by
  unfold reachable
  split
  next inv len =>
    have hlen : len.toNat ≤ s.str.length := h
    rw [if_neg (Nat.not_lt.2 hlen)]
  next => rfl

theorem reachable_of_ne_printstr {i : Instr} (h : ∀ inv absent len, i ≠ .printstr inv absent len) (s : State) :
    reachable i s = i := by
  unfold reachable
  split
  next inv len => exact absurd rfl (h inv false len)
  next => rfl

/-- The transactions of a command that comes to its end. -/
theorem history_of_exec_reachable {i : Instr} {s u : State}
    (h : exec (reachable i s) { s with stalled := false } = .next u) : u.history = s.history ++ transactionsOf i s := by
  obtain ⟨-, -, -, -, -, -, -, -, -, ts, hts⟩ := commandsKeepTheControlState _ _ _ h
  simp only [transactionsOf, h, hts, List.drop_left]

/-- The payload is there: the transactions are those of the whole command. -/
theorem transactionsOf_of_payload {i : Instr} {s : State} (h : payloadLength i ≤ s.str.length) :
    ∃ u, exec i { s with stalled := false } = .next u ∧ u.history = s.history ++ transactionsOf i s := by
  obtain ⟨u, hu⟩ := everyCommandCompletes i { s with stalled := false } rfl h
  exact ⟨u, hu, history_of_exec_reachable (by rw [reachable_of_payload h]; exact hu)⟩

/-- A string command other than PRINTSTR waits before it has sent anything. -/
theorem transactionsOf_of_short_payload {i : Instr} {s : State} (h : s.str.length < payloadLength i)
    (hi : ∀ inv absent len, i ≠ .printstr inv absent len) : transactionsOf i s = [] := by
  have hstuck : exec i { s with stalled := false } = .fault .payloadShort := shortPayloadIsStuck i _ h
  simp only [transactionsOf, reachable_of_ne_printstr hi, hstuck]

theorem printAtCursor_setStr_history (inv : Bool) (bytes str : List Byte) (s : State) :
    (printAtCursor inv bytes (s.setStr str)).history = (printAtCursor inv bytes s).history := by
  have h : printAtCursor inv bytes (s.setStr str) = _ := printAtCursor_onto inv bytes s (s.setStr str)
  rw [h]
  rfl

/-- The PUTCHARs of a string send what its characters at the cursor send, whatever BUSY is before the first. -/
theorem execAll_putchars_history (inv : Bool) (bytes : List Byte) {s : State} (hs : s.stalled = false) :
    ∃ u, execAll (bytes.map fun ch => .putchar inv ch) s = .next u ∧
      u.history = (printAtCursor inv bytes s).history := by
  cases bytes with
  | nil => exact ⟨s, rfl, rfl⟩
  | cons ch rest =>
    exact ⟨_, (execAll_cons (exec_putchar_of_accepting hs inv ch) _).trans
      (execAll_putchars inv rest ((charAtCursor_keeps ch inv s).stalled.trans hs)), rfl⟩

/-- A PRINTSTR that waits for the rest of its payload has sent the transactions of the PUTCHARs of the bytes there. -/
theorem transactionsOf_of_short_printstr {inv absent : Bool} {len : Byte} {s : State}
    (h : s.str.length < payloadLength (.printstr inv absent len)) :
    ∃ u, execAll (s.str.map fun ch => .putchar inv ch) { s with stalled := false } = .next u ∧
      u.history = s.history ++ transactionsOf (.printstr inv absent len) s := by
  cases absent with
  | true => exact absurd h (Nat.not_lt_zero _)
  | false =>
    have hlt : s.str.length < len.toNat := h
    have hreach : reachable (.printstr inv false len) s = .printstr inv false (BitVec.ofNat 8 s.str.length) := by
      rw [reachable, if_pos hlt]
    have hlen : s.str.length = (BitVec.ofNat 8 s.str.length).toNat := by
      have := len.isLt
      rw [BitVec.toNat_ofNat, Nat.mod_eq_of_lt (by omega)]
    have hexec := exec_printstr_of_payload (s := { s with stalled := false }) rfl (List.append_nil s.str).symm hlen inv
    obtain ⟨u, hu, huh⟩ := execAll_putchars_history inv s.str (s := { s with stalled := false }) rfl
    refine ⟨u, hu, ?_⟩
    rw [← history_of_exec_reachable (hreach ▸ hexec), huh]
    exact (printAtCursor_setStr_history inv s.str [] _).symm

/-- Settles O13, by whether there is a command to abandon and whether its frame is legal. -/
theorem resetInsideACommand : Obligations.ResetInsideACommand := by
  intro s hr
  rw [step_of_rst_inCommand hr]
  by_cases hidle : s.fault = true ∨ s.busy = true ∨ s.cmd = []
  case pos =>
    refine ⟨_, s.cmd, s.str, [], ?_, fun _ => read_fbReset _, fun _ => ⟨rfl, rfl, rfl⟩, fun f rest hf hb hc => ?_⟩
    · rw [resetInCommand_of_no_command hidle, State.resetLeaving_eq]
    · simp [hf, hb, hc] at hidle
  case neg =>
    have ⟨hf, hb, hne⟩ : s.fault = false ∧ s.busy = false ∧ s.cmd ≠ [] := by simpa using hidle
    obtain ⟨f, rest, hc⟩ := List.exists_cons_of_ne_nil hne
    cases hd : decode f with
    | error e =>
      refine ⟨_, rest, s.str, [], ?_, fun _ => read_fbReset _, fun h => absurd h hidle, fun f' rest' _ _ hc' => ?_⟩
      · rw [resetInCommand_of_decode_error hf hb hc hd, State.resetLeaving_eq]
      · obtain ⟨rfl, rfl⟩ := List.cons.inj (hc.symm.trans hc')
        exact ⟨rfl, fun _ _ => ⟨rfl, rfl⟩, fun i hi => absurd (hd.symm.trans hi) (by simp)⟩
    | ok i =>
      refine ⟨_, rest, s.str.drop (min (payloadLength i) (Config.abandonStr s.resets)),
        cutTransactions s.resets (transactionsOf i (accept rest s)), ?_, fun _ => read_fbReset _,
        fun h => absurd h hidle, fun f' rest' _ _ hc' => ?_⟩
      · rw [resetInCommand_of_decode hf hb hc hd, State.resetLeaving_eq]
      · obtain ⟨rfl, rfl⟩ := List.cons.inj (hc.symm.trans hc')
        refine ⟨rfl, fun e he => absurd (hd.symm.trans he) (by simp), fun j hj => ?_⟩
        obtain rfl := Except.ok.inj (hd.symm.trans hj)
        refine ⟨_, _, _, transactionsOf i (accept rest s), Nat.min_le_left _ _, rfl, cutTransactions_eq_cutShort _ _,
          transactionsOf_of_payload (s := accept rest s),
          fun hshort => ⟨?_, transactionsOf_of_short_payload (s := accept rest s) hshort⟩⟩
        rintro inv absent len rfl
        exact transactionsOf_of_short_printstr (s := accept rest s) hshort

end Sys2Proof.Machine

/-! PROOFS. The sample frames of 95_test_vectors: the legal ones are the encoder's frames, and each illegal one fails one check of the
row its OP selects, or has no row (30_encoding R100, R101). -/

namespace Sys2Proof

/-- A row refuses a frame with a 1 outside its operands for its reserved bits. -/
theorem EncodingRow.read_of_not_match {r : EncodingRow} {f : Frame} (h : f &&& r.mask ≠ r.pattern) :
    r.read f = .error .reservedBits := by
  rw [EncodingRow.read, if_neg h]

/-- A string row refuses a frame that says ABSENT and still announces bytes. -/
theorem EncodingRow.read_of_absent_with_length {r : EncodingRow} {f : Frame} (hm : f &&& r.mask = r.pattern)
    (hcounted : r.counted = true) (habsent : absentBit f = true) (hlen : lowField f ≠ 0) :
    r.read f = .error .absentWithLength := by
  simpa [EncodingRow.read, hm, hcounted, habsent] using hlen

theorem decode_of_rowOf {r : EncodingRow} {f : Frame} (h : rowOf (opField f) = some r) : decode f = r.read f := by
  simp only [decode, h]

/-- Settles O1: a legal sample is the frame of the command named, which is well formed; of the illegal ones the first has an OP without
a row, the second a 1 in FLAGS, which FLUSHREGION reserves, and the third is a PRINTSTR with ABSENT = 1 and LEN = 2. -/
theorem sampleFramesDecode : Obligations.SampleFramesDecode := by
  refine ⟨?setcursor, ?putchar, ?printstrxy, ?fillrect, ?flushregion, ?setmode, ?setb, ?unassigned, ?reserved, ?absent⟩
  case unassigned => exact decode_eq_unassigned_iff.2 rfl
  case reserved => exact (decode_of_rowOf rfl).trans (EncodingRow.read_of_not_match (by decide))
  case absent => exact (decode_of_rowOf rfl).trans (EncodingRow.read_of_absent_with_length rfl rfl rfl (by decide))
  all_goals exact decode_eq_ok_iff.2 ⟨rfl, rfl⟩

end Sys2Proof
